-- ==== Sys2Proof/Word.lean ====
section
/-! DEFINITION. The word types of the CRC16-TM block (spec/00_scope.md R8, R12): `Word16` and `Byte`, unsigned, bit 0 the
least significant. A time is an exact rational number of microseconds (R9): no rounding but where a rule names `round`. -/

namespace Sys2Proof

/-- `Word16` of R12: a command or operand word, a parameter image, a CRC value. -/
abbrev Word := BitVec 16

/-- `Byte` of R12: the data operand of CRCU. -/
abbrev Byte := BitVec 8

/-- A number of microseconds, exact (R9, R12). `Micros` of R12 is non-negative; the operand US of TPSC may be presented
negative (R76) and is then answered ERR_RANGE, so the sign is not part of the type. That every time the block ANSWERS is
non-negative is an invariant of the machine (`Machine.State.Inv`, Safety.lean). -/
abbrev Micros := Rat

end Sys2Proof
end

