-- ==== Sys2Proof/Syntax.lean ====
section
/-! DEFINITION. The command set as data: one constructor of `Instr` per row of spec/opcode_table.json
(spec/30_encoding.md R75), the speeds and parameters commands name (R12, R24, R25), and the items the host puts on the
command port (R70, R71). -/

namespace Sys2Proof

/-- BusSpeed (spec/10_state.md R24). -/
inductive Speed where
  | standard
  | overdrive
  deriving DecidableEq, Repr

/-- The eight timing parameters, in the order of their codes (spec/10_state.md R25). -/
inductive Param where
  | tRSTL
  | tRSTH
  | tW0L
  | tW1L
  | tREC
  | tMSI
  | tMSP
  | tMSR
  deriving DecidableEq, Repr

/-- `other(s)` of R12. -/
def Speed.other : Speed → Speed
  | .standard => .overdrive
  | .overdrive => .standard

/-- The fifteen commands, each with the fields of its format (R73, R74) and its operand (R76). -/
inductive Instr where
  /-- R100: seed the CRC. -/
  | crci
  /-- R102: shift the byte `d` into the CRC. -/
  | crcu (d : Byte)
  /-- R103: read the final CRC. -/
  | crcr
  /-- R104: compare the final CRC with the received CRC `w`. -/
  | crcc (w : Word)
  /-- R140: set the current speed. -/
  | spdw (s : Speed)
  /-- R141: read the current speed. -/
  | spdr
  /-- R142: read a parameter image. -/
  | tprr (s : Speed) (p : Param)
  /-- R143: write the image `w` unvalidated. -/
  | tprw (s : Speed) (p : Param) (w : Word)
  /-- R144: set a parameter to the preset index `i`. -/
  | tpsp (s : Speed) (p : Param) (i : BitVec 4)
  /-- R145: set a parameter to the custom time `us`. -/
  | tpsc (s : Speed) (p : Param) (us : Micros)
  /-- R146: get a parameter in microseconds. -/
  | tpgt (s : Speed) (p : Param)
  /-- R165: bit time, at the current speed (`e = false`) or at the speed `s` (`e = true`). -/
  | bitt (e : Bool) (s : Speed)
  /-- R166: reset time. -/
  | rstt (e : Bool) (s : Speed)
  /-- R167: byte time. -/
  | bytt (e : Bool) (s : Speed)
  /-- R168: block bus-occupancy time of `n` bytes; `r`: a reset precedes the block. -/
  | blkt (e : Bool) (s : Speed) (r : Bool) (n : Word)
  deriving DecidableEq, Repr

/-- What the host can put on the block: a 16-bit word (a command word or an operand word W), the microsecond operand US of
TPSC, which is no bit pattern (R76), or the reset input (spec/70_reset_and_hazards.md R200). -/
inductive PortItem where
  | word (w : Word)
  | us (q : Micros)
  | reset
  deriving DecidableEq, Repr

/-- A TURN of the host: everything it puts on the port before the block's next response, in order. Lawful turns hold one
command (its word and the operand its OP calls for, R70, R72); the turns the spec gives no meaning to (a command word without
its operand R71, a second command before the response R208, a reset during a command R200) are written as turns too, and
refused by name. DESIGN CHOICE, notes/assumptions/1.md. -/
abbrev Turn := List PortItem

end Sys2Proof
end

