-- ==== Sys2Proof/Config.lean ====
section
/-! DEFINITION. The parameters the spec leaves OPEN (spec/00_scope.md R7; spec/92_eei_decisions.md D9, D10). They have no
body: nothing in Lean can evaluate one or prove a value of it, so a theorem about the machine holds for all values of
them. notes/assumptions/5.md and 6.md. -/

namespace Sys2Proof

/-- `PRESET_US(p, s, i)` of R7: the microsecond value of preset table entry `i`, a non-negative rational. No entry is in
the source. -/
opaque Config.presetUs : Param → Speed → Fin 16 → NNRat

/-- The OPEN part of `CUSTOM_MAX_MAG(p, s)` of R7: an integer in 0..0x7FFF. `Machine.customMaxMag` puts the one point the
spec fixes over it. -/
opaque Config.openMaxMag : Param → Speed → Fin 0x8000

/-- The OPEN part of `CUSTOM_MIN_MAG(p, s)` of R7: an integer in 0..0x7FFF. `Machine.customMinMag` caps it at the maximum,
which is R7's assumption MIN <= MAX. -/
opaque Config.openMinMag : Param → Speed → Fin 0x8000

end Sys2Proof
end

