-- ==== Sys2Proof/WellFormed.lean ====
section
/-! DEFINITION. Which terms of `Instr` are commands of the block. The field types already carry every range of
spec/30_encoding.md R76; what is left is R78 (c): a derived-time command with E = 0 must have S = 0. -/

namespace Sys2Proof

/-- The speed selection of formats T and TW is one of the three R77 gives: E = 0 with S = 0, or E = 1 with either speed. -/
def selWf (e : Bool) (s : Speed) : Bool :=
  e || decide (s = .standard)

/-- `i` is a command of the block (R78: every other word is illegal). -/
def Instr.wf : Instr → Bool
  | .crci => true
  | .crcu _ => true
  | .crcr => true
  | .crcc _ => true
  | .spdw _ => true
  | .spdr => true
  | .tprr _ _ => true
  | .tprw _ _ _ => true
  | .tpsp _ _ _ => true
  | .tpsc _ _ _ => true
  | .tpgt _ _ => true
  | .bitt e s => selWf e s
  | .rstt e s => selWf e s
  | .bytt e s => selWf e s
  | .blkt e s _ _ => selWf e s

end Sys2Proof
end

