-- ==== Sys2Proof/Decode.lean ====
section
/-! DEFINITION. Decoding (spec/30_encoding.md R72 to R79), the encoder written from the same tables (R74, R80), the
serialisation of words as bytes (spec/20_memory.md R53, R55, R57), and what the host's table check reads
(`decodeTableWord`, `tableTurn`). -/

namespace Sys2Proof

/-! ## Field codes -/

/-- The speed coded by a field or by SPEED: 0 = Standard, 1 = Overdrive (R24, R73). -/
def Speed.ofBit (b : Bool) : Speed :=
  if b then .overdrive else .standard

/-- The speed code S (R24). -/
def Speed.code : Speed → Nat
  | .standard => 0
  | .overdrive => 1

/-- The parameter code P (R25). -/
def Param.code : Param → Nat
  | .tRSTL => 0
  | .tRSTH => 1
  | .tW0L => 2
  | .tW1L => 3
  | .tREC => 4
  | .tMSI => 5
  | .tMSP => 6
  | .tMSR => 7

/-- The parameter with code `n` (R25); the field P has three bits, so `n` is at most 7. -/
def Param.ofCode (n : Nat) : Param :=
  match n with
  | 0 => .tRSTL
  | 1 => .tRSTH
  | 2 => .tW0L
  | 3 => .tW1L
  | 4 => .tREC
  | 5 => .tMSI
  | 6 => .tMSP
  | _ => .tMSR

/-! ## Fields of the command word (R73) -/

/-- OP = `CW[15:12]`. -/
def fieldOp (cw : Word) : Nat := (cw.extractLsb' 12 4).toNat

/-- S = `CW[11]`. -/
def fieldS (cw : Word) : Speed := Speed.ofBit (cw.getLsbD 11)

/-- P = `CW[10:8]`. -/
def fieldP (cw : Word) : Param := Param.ofCode (cw.extractLsb' 8 3).toNat

/-- R = `CW[9]`. -/
def fieldR (cw : Word) : Bool := cw.getLsbD 9

/-- E = `CW[8]`. -/
def fieldE (cw : Word) : Bool := cw.getLsbD 8

/-- D = `CW[7:0]`. -/
def fieldD (cw : Word) : Byte := cw.extractLsb' 0 8

/-- I = `CW[3:0]`. -/
def fieldI (cw : Word) : BitVec 4 := cw.extractLsb' 0 4

/-- `RZ(mask)` of R79: the bits of CW selected by the mask are all 0. -/
def rz (cw mask : Word) : Bool := (cw &&& mask) == 0#16

/-- "not (e = 0 and s = 1)" of R79, R78 (c): the speed selections formats T and TW allow. -/
def legalSel (e : Bool) (s : Speed) : Bool := !(!e && decide (s = .overdrive))

/-! ## Operands (R72) -/

/-- The operand of a command as it was taken from the port. -/
inductive Operand where
  | none
  | word (w : Word)
  | us (q : Micros)
  deriving DecidableEq, Repr

/-- Which operand follows a command word. -/
inductive OperandKind where
  | none
  | word
  | us
  deriving DecidableEq, Repr

/-- The kind of an operand. -/
def Operand.kind : Operand → OperandKind
  | .none => .none
  | .word _ => .word
  | .us _ => .us

/-- R72: OP alone says which operand follows, for every word, illegal ones included. -/
def operandKind (cw : Word) : OperandKind :=
  match fieldOp cw with
  | 0x4 => .word
  | 0x8 => .word
  | 0xF => .word
  | 0xA => .us
  | _ => .none

/-- Why a turn of the host has no meaning. -/
inductive Reject where
  /-- The first item is a microsecond value: no command word was presented (R70). -/
  | notACommandWord
  /-- The operand the OP field calls for does not follow (R71). -/
  | operandMissing
  /-- Reset is asserted between a command word and its response (R200). -/
  | resetDuringCommand
  /-- Something follows a whole command before its response (R70, R208). -/
  | presentedBeforeResponse
  deriving DecidableEq, Repr

/-- The operand of the kind asked for, taken from the items behind the command word (R71, R72). -/
def takeOperand (k : OperandKind) (items : Turn) : Except Reject (Operand × Turn) :=
  match k with
  | .none => .ok (.none, items)
  | .word =>
    match items with
    | .word w :: rest => .ok (.word w, rest)
    | .reset :: _ => .error .resetDuringCommand
    | _ => .error .operandMissing
  | .us =>
    match items with
    | .us q :: rest => .ok (.us q, rest)
    | .reset :: _ => .error .resetDuringCommand
    | _ => .error .operandMissing

/-! ## The decoder -/

/-- A command that takes no operand. -/
def bare (x : Operand) (i : Instr) : Option Instr :=
  match x with
  | .none => some i
  | _ => none

/-- A command behind which an operand word W follows. -/
def withWord (x : Operand) (k : Word → Instr) : Option Instr :=
  match x with
  | .word w => some (k w)
  | _ => none

/-- A command behind which a microsecond value US follows. -/
def withUs (x : Operand) (k : Micros → Instr) : Option Instr :=
  match x with
  | .us q => some (k q)
  | _ => none

/-- `decode(CW)` of R79, with the operand the command takes; `none` is the rule's `Illegal` (and the answer for an operand
of another kind than R72 gives the word, which `fetch` never passes). -/
def decode (cw : Word) (x : Operand) : Option Instr :=
  let s := fieldS cw
  let p := fieldP cw
  let e := fieldE cw
  match fieldOp cw with
  | 0x1 => if rz cw 0x0FFF#16 then bare x .crci else none
  | 0x2 => if rz cw 0x0F00#16 then bare x (.crcu (fieldD cw)) else none
  | 0x3 => if rz cw 0x0FFF#16 then bare x .crcr else none
  | 0x4 => if rz cw 0x0FFF#16 then withWord x .crcc else none
  | 0x5 => if rz cw 0x07FF#16 then bare x (.spdw s) else none
  | 0x6 => if rz cw 0x0FFF#16 then bare x .spdr else none
  | 0x7 => if rz cw 0x00FF#16 then bare x (.tprr s p) else none
  | 0x8 => if rz cw 0x00FF#16 then withWord x (.tprw s p) else none
  | 0x9 => if rz cw 0x00F0#16 then bare x (.tpsp s p (fieldI cw)) else none
  | 0xA => if rz cw 0x00FF#16 then withUs x (.tpsc s p) else none
  | 0xB => if rz cw 0x00FF#16 then bare x (.tpgt s p) else none
  | 0xC => if rz cw 0x06FF#16 && legalSel e s then bare x (.bitt e s) else none
  | 0xD => if rz cw 0x06FF#16 && legalSel e s then bare x (.rstt e s) else none
  | 0xE => if rz cw 0x06FF#16 && legalSel e s then bare x (.bytt e s) else none
  | 0xF => if rz cw 0x04FF#16 && legalSel e s then withWord x (.blkt e s (fieldR cw)) else none
  | _ => none

/-- What the block finds on its port when the host has made a turn. -/
inductive Fetched where
  /-- Nothing was presented. -/
  | idle
  /-- The reset input, asserted while the port is idle (R200); `more` is what the host does after it in the same turn. -/
  | reset (more : Turn)
  /-- A command of R75. -/
  | command (i : Instr)
  /-- An illegal command word, its operand consumed (R78). -/
  | illegal
  /-- A turn without a meaning. -/
  | rejected (r : Reject)
  deriving DecidableEq, Repr

/-- Reading a turn, total on any items: the command word first, then the operand its OP calls for (R72), and nothing more
before the response (R70). -/
def fetch (t : Turn) : Fetched :=
  match t with
  | [] => .idle
  | .reset :: more => .reset more
  | .us _ :: _ => .rejected .notACommandWord
  | .word cw :: items =>
    match takeOperand (operandKind cw) items with
    | .error r => .rejected r
    | .ok (_, .reset :: _) => .rejected .resetDuringCommand
    | .ok (_, _ :: _) => .rejected .presentedBeforeResponse
    | .ok (x, []) =>
      match decode cw x with
      | some i => .command i
      | none => .illegal

/-! ## The encoder -/

/-- `S << 11`. -/
def Speed.bits (s : Speed) : Word := BitVec.ofNat 16 s.code <<< 11

/-- `P << 8`. -/
def Param.bits (p : Param) : Word := BitVec.ofNat 16 p.code <<< 8

/-- `E << 8`. -/
def bitsE (e : Bool) : Word := if e then 0x0100#16 else 0x0000#16

/-- `R << 9`. -/
def bitsR (r : Bool) : Word := if r then 0x0200#16 else 0x0000#16

/-- The command word of an instruction, from the encoding columns of R74, R80 and the command rules. -/
def Instr.word : Instr → Word
  | .crci => 0x1000#16
  | .crcu d => 0x2000#16 ||| d.setWidth 16
  | .crcr => 0x3000#16
  | .crcc _ => 0x4000#16
  | .spdw s => 0x5000#16 ||| s.bits
  | .spdr => 0x6000#16
  | .tprr s p => 0x7000#16 ||| s.bits ||| p.bits
  | .tprw s p _ => 0x8000#16 ||| s.bits ||| p.bits
  | .tpsp s p i => 0x9000#16 ||| s.bits ||| p.bits ||| i.setWidth 16
  | .tpsc s p _ => 0xA000#16 ||| s.bits ||| p.bits
  | .tpgt s p => 0xB000#16 ||| s.bits ||| p.bits
  | .bitt e s => 0xC000#16 ||| s.bits ||| bitsE e
  | .rstt e s => 0xD000#16 ||| s.bits ||| bitsE e
  | .bytt e s => 0xE000#16 ||| s.bits ||| bitsE e
  | .blkt e s r _ => 0xF000#16 ||| s.bits ||| bitsR r ||| bitsE e

/-- The operand of an instruction (R72, R76). -/
def Instr.operand : Instr → Operand
  | .crcc w => .word w
  | .tprw _ _ w => .word w
  | .tpsc _ _ us => .us us
  | .blkt _ _ _ n => .word n
  | .crci => .none
  | .crcu _ => .none
  | .crcr => .none
  | .spdw _ => .none
  | .spdr => .none
  | .tprr _ _ => .none
  | .tpsp _ _ _ => .none
  | .tpgt _ _ => .none
  | .bitt _ _ => .none
  | .rstt _ _ => .none
  | .bytt _ _ => .none

/-- The operand as the host puts it on the port. -/
def Operand.items : Operand → Turn
  | .none => []
  | .word w => [.word w]
  | .us q => [.us q]

/-- The turn in which the host presents an instruction: its command word, then its operand (R70, R72). -/
def encode (i : Instr) : Turn := .word i.word :: i.operand.items

/-! ## Bytes (spec/20_memory.md R53, R55, R57) -/

/-- `ser16(w)`: low byte first. -/
def ser16 (w : Word) : List Byte := [w.extractLsb' 0 8, w.extractLsb' 8 8]

/-- `deser16(b0, b1)` = b0 | (b1 << 8). -/
def deser16 (b0 b1 : Byte) : Word := b0.setWidth 16 ||| (b1.setWidth 16 <<< 8)

/-- The words a byte stream carries, low byte first (R57); `none` where a word's second byte is missing. -/
def wordsOfBytes (bs : List Byte) : Option (List Word) :=
  match bs with
  | [] => some []
  | [_] => none
  | b0 :: b1 :: rest => (wordsOfBytes rest).map (deser16 b0 b1 :: ·)

/-- The byte stream of a turn (R57); `none` where the turn holds an item that is no word. US is no bit pattern (R76) and
the spec gives it no bytes. -/
def bytesOfTurn (t : Turn) : Option (List Byte) :=
  match t with
  | [] => some []
  | .word w :: rest => (bytesOfTurn rest).map (ser16 w ++ ·)
  | .us _ :: _ => none
  | .reset :: _ => none

/-- Reading a turn that came over a byte stream (R57), total on any bytes: an odd byte left over is an operand or a command
word that was not presented whole. -/
def fetchBytes (bs : List Byte) : Fetched :=
  match wordsOfBytes bs with
  | none => .rejected .operandMissing
  | some ws => fetch (ws.map .word)

/-! ## The host's table check -/

/-- The turn that presents the table's bits `w` of an `nbits` bit row: the command word is bits 15..0, an operand word is
bits 31..16, and every bit from `nbits` up is 0. The table gives US no bits, so it is 0 here. notes/assumptions/11.md. -/
def tableTurn (nbits w : Nat) : Turn :=
  let v := w % 2 ^ nbits
  let cw := BitVec.ofNat 16 v
  match operandKind cw with
  | .none => [.word cw]
  | .word => [.word cw, .word (BitVec.ofNat 16 (v / 2 ^ 16))]
  | .us => [.word cw, .us 0]

/-- The instruction the decoder reads from the table's bits. -/
def decodeTableWord (nbits w : Nat) : Option Instr :=
  match fetch (tableTurn nbits w) with
  | .command i => some i
  | _ => none

end Sys2Proof
end

