-- ==== Sys2Proof/Machine/State.lean ====
section
/-! DEFINITION. The state of the block: the three elements spec/10_state.md R20 gives it, and the command port beside them
(spec/30_encoding.md R70): what the host will present, and the response the latest step gave. -/

namespace Sys2Proof.Machine

/-- The response codes (spec/60_exceptions.md R180); no other code exists. -/
inductive Code where
  | ok
  | errIllegal
  | errRange
  | errCrc
  deriving DecidableEq, Repr

/-- The value of a response: the three types of R75's value column. -/
inductive Value where
  | word (w : Word)
  | speed (s : Speed)
  | micros (q : Micros)
  deriving DecidableEq, Repr

/-- A response `(code, value)` (R70). -/
structure Response where
  code : Code
  value : Option Value
  deriving DecidableEq, Repr

/-- The block and its port. -/
structure State where
  /-- SPEED, 1 bit (R24). -/
  speed : Speed
  /-- TP, sixteen 16-bit images (R25), the image of (s, p) at the linear index `8*S + P`. -/
  tp : Vector Word 16
  /-- CRC_ACC, 16 bits (R26). -/
  crcAcc : Word
  /-- The port's input: the host's turns still to come, the next one first. MODEL'S OWN field (notes/assumptions/1.md). -/
  host : List Turn
  /-- The port's output: the response given by the step that led to this state, `none` if it gave none. MODEL'S OWN field
  (notes/assumptions/2.md): R30 keeps every outcome in the response alone, and no later step reads it. -/
  response : Option Response
  deriving DecidableEq, Repr

/-- The reasons the machine stops with a fault: NONE. The block has no faults, traps or interrupts: every error is a
response (spec/60_exceptions.md R180, R187, R188), so nobody raises one. -/
inductive Fault
  deriving DecidableEq, Repr

/-- The reasons a step has no meaning. All are safe: the machine stops where the spec gives no meaning. -/
inductive Refusal where
  /-- Raised by `exec` for an instruction that has no meaning yet (none at present). Safe. -/
  | notModelled (mnemonic : String)
  /-- Raised by `step`: a turn that begins with a microsecond value presents no command word (R70). Safe. -/
  | notACommandWord
  /-- Raised by `step`: a command word without the operand its OP calls for (R71). Safe. -/
  | operandMissing
  /-- Raised by `step`: reset asserted between a command word and its response (R200). Safe. -/
  | resetDuringCommand
  /-- Raised by `step`: a second command, or anything else, presented before the response to the first (R208). Safe. -/
  | presentedBeforeResponse
  deriving DecidableEq, Repr

/-- The machine right after reset (R31, R200): Standard speed, every image the preset index 6, the CRC seed. The host has
presented nothing and no response has been given (notes/assumptions/3.md). -/
def State.reset : State where
  speed := .standard
  tp := Vector.replicate 16 0x0006#16
  crcAcc := 0x0000#16
  host := []
  response := none

end Sys2Proof.Machine
end

