-- ==== Sys2Proof/Machine/Ops.lean ====
section
/-! DEFINITION. The named operations over the state: reading and writing one image of TP, writing SPEED, CRC_ACC and the
host's turns, and answering a command (`respond` and `raise` of spec/00_scope.md R11). The block has no memory
(spec/20_memory.md R50) and takes no exceptions (spec/60_exceptions.md R188): an error is a response, `State.raise`, and
there is no return from one. -/

namespace Sys2Proof.Machine

/-- The linear index `8*S + P` of an image (spec/10_state.md R25). -/
def tpIndex (s : Speed) (p : Param) : Fin 16 := Fin.ofNat 16 (8 * s.code + p.code)

/-- `TP[s][p]` (R11, R25). -/
def State.readTp (st : State) (s : Speed) (p : Param) : Word := st.tp.get (tpIndex s p)

/-- `TP[s][p] <- w` (R11, R25). -/
def State.writeTp (st : State) (s : Speed) (p : Param) (w : Word) : State :=
  { st with tp := st.tp.set (tpIndex s p) w }

/-- `SPEED <- s` (R11, R24). -/
def State.setSpeed (st : State) (s : Speed) : State := { st with speed := s }

/-- `CRC_ACC <- a` (R11, R26). -/
def State.setCrc (st : State) (a : Word) : State := { st with crcAcc := a }

/-- The host's turns still to come. -/
def State.setHost (st : State) (ts : List Turn) : State := { st with host := ts }

/-- The step gives no response: nothing was presented, or the host asserted reset. -/
def State.quiet (st : State) : State := { st with response := none }

/-- `respond(code, value)` (R11). -/
def State.respond (st : State) (c : Code) (v : Option Value) : State := { st with response := some ⟨c, v⟩ }

/-- `respond(OK, none)`. -/
def State.done (st : State) : State := st.respond .ok none

/-- `respond(OK, v)`. -/
def State.answer (st : State) (v : Value) : State := st.respond .ok (some v)

/-- `raise ERR_X` = `respond(ERR_X, none)` with no state written (R11, R184). -/
def State.raise (st : State) (c : Code) : State := st.respond c none

/-- The reset input (spec/70_reset_and_hazards.md R200): every state element takes its value of R31; the turns still to
come are the host's own. There is no response to reset. -/
def State.resetInput (st : State) : State := State.reset.setHost st.host

/-- The name under which a turn without a meaning is refused. -/
def refusalOf : Reject → Refusal
  | .notACommandWord => .notACommandWord
  | .operandMissing => .operandMissing
  | .resetDuringCommand => .resetDuringCommand
  | .presentedBeforeResponse => .presentedBeforeResponse

/-- What the host does after a reset: the rest of the same turn, if there is any, is its next turn. -/
def turnsAfterReset (more : Turn) (rest : List Turn) : List Turn :=
  match more with
  | [] => rest
  | _ :: _ => more :: rest

end Sys2Proof.Machine
end

