-- ==== Sys2Proof/Machine/Operands.lean ====
section
/-! DEFINITION. The values commands work on: the layout of a parameter image (spec/10_state.md R27), its encoding and
decoding (spec/41_timing_params.md R130, R131), the accepted custom range (spec/00_scope.md R7), the speed selection
(spec/30_encoding.md R77) and the derived times (spec/42_derived_time.md R161 to R164). -/

namespace Sys2Proof.Machine

/-! ## Images -/

/-- C = bit 15 of an image (R27): the image is a custom value. -/
def imageC (w : Word) : Bool := w.getLsbD 15

/-- F = bits 14:0 of an image (R27): a preset index or a magnitude. -/
def imageF (w : Word) : Nat := (w.extractLsb' 0 15).toNat

/-- `0x8000 | m` (R130): the custom image with magnitude `m`. -/
def customImage (m : Nat) : Word := 0x8000#16 ||| BitVec.ofNat 16 m

/-- `zext_16(I)` (R144): the preset image with index `i`. -/
def presetImage (i : BitVec 4) : Word := i.setWidth 16

/-! ## The open parameters, as R7 constrains them -/

/-- `PRESET_US(p, s, i)` (R7). -/
def presetUs (p : Param) (s : Speed) (i : Fin 16) : Micros := (Config.presetUs p s i : Rat)

/-- `CUSTOM_MAX_MAG(p, s)` (R7): open, but for the one point the spec fixes. -/
def customMaxMag (p : Param) (s : Speed) : Nat :=
  match p, s with
  | .tW0L, .overdrive => 504
  | p, s => (Config.openMaxMag p s).val

/-- `CUSTOM_MIN_MAG(p, s)` (R7): open, at most the maximum. -/
def customMinMag (p : Param) (s : Speed) : Nat := min (Config.openMinMag p s).val (customMaxMag p s)

/-! ## Encoding and decoding -/

/-- `round(x)` of spec/00_scope.md R10: the nearest integer, the larger one at a tie; `floor(x + 1/2)`. -/
def roundHalfUp (x : Rat) : Int := ⌊x + 1 / 2⌋

/-- `encodeCustom(p, s, us)` (R130); `none` is the rule's RangeError. -/
def encodeCustom (p : Param) (s : Speed) (us : Micros) : Option Word :=
  if us < 0 then none
  else
    let m := (roundHalfUp (us * 16)).toNat
    if 0x7FFF < m then none
    else if m < customMinMag p s ∨ customMaxMag p s < m then none
    else some (customImage m)

/-- `decode(p, s, w)` (R131): the microseconds an image stands for, total. -/
def decodeImage (p : Param) (s : Speed) (w : Word) : Micros :=
  if imageC w then (imageF w : Rat) / 16
  else if imageF w ≤ 15 then presetUs p s (Fin.ofNat 16 (imageF w))
  else presetUs p s 6

/-- `value(p, s)` (R132), read from the images as they stand. -/
def State.value (st : State) (p : Param) (s : Speed) : Micros := decodeImage p s (st.readTp s p)

/-! ## Derived times -/

/-- `sel(E, S)` (R77, R160). -/
def State.sel (st : State) (e : Bool) (s : Speed) : Speed := if e then s else st.speed

/-- `bitTime(t)` (R161). -/
def State.bitTime (st : State) (t : Speed) : Micros := st.value .tW0L t + st.value .tREC t

/-- `resetTime(t)` (R162). -/
def State.resetTime (st : State) (t : Speed) : Micros := st.value .tRSTL t + st.value .tRSTH t

/-- `byteTime(t)` (R163). -/
def State.byteTime (st : State) (t : Speed) : Micros := 8 * st.bitTime t

/-- `blockTime(t, n, r)` (R164). -/
def State.blockTime (st : State) (t : Speed) (n : Word) (r : Bool) : Micros :=
  (n.toNat : Rat) * st.byteTime t + (if r then st.resetTime t else 0)

/-! ## The CRC step (spec/40_crc16.md R101) -/

/-- One round of R101's loop: the accumulator takes one input bit. -/
def crcBit (acc : Word) (b : Bool) : Word :=
  if acc.getLsbD 0 ^^ b then (acc >>> 1) ^^^ 0xA001#16 else acc >>> 1

/-- `crcStep(acc, b)` (R101): the eight bits of the byte, bit 0 first. -/
def crcStep (acc : Word) (b : Byte) : Word :=
  (List.range 8).foldl (fun a i => crcBit a (b.getLsbD i)) acc

/-- The final CRC, the accumulator XOR 0xFFFF (R103). -/
def finalCrc (acc : Word) : Word := acc ^^^ 0xFFFF#16

end Sys2Proof.Machine
end

