-- ==== Sys2Proof/Machine/Flags.lean ====
section
/-! DEFINITION. What a command reports. The block has no flag, condition-code or status register (spec/10_state.md R30): the
whole report of a command is its response code (spec/60_exceptions.md R180), so this file holds the codes' numbers and the
conditions under which a command answers one that is not OK. -/

namespace Sys2Proof.Machine

/-- The numbers of the response codes (R180). -/
def Code.number : Code → Nat
  | .ok => 0
  | .errIllegal => 1
  | .errRange => 2
  | .errCrc => 3

/-- CRCC's comparison, on all 16 bits of the final CRC (spec/40_crc16.md R104). -/
def crcMatches (acc w : Word) : Bool := w == finalCrc acc

/-- The code CRCC answers (R104, R183). -/
def crcCode (acc w : Word) : Code := if crcMatches acc w then .ok else .errCrc

end Sys2Proof.Machine
end

