-- ==== Sys2Proof/Machine/Crc16.lean ====
section
/-! DEFINITION. The CRC-16 commands (spec/40_crc16.md R100 to R104), and the CRC of a byte sequence (R105). -/

namespace Sys2Proof.Machine

/-- R100: `CRC_ACC <- 0x0000; respond(OK, none)`. -/
def execCrci (st : State) : Host.Outcome State Fault Refusal :=
  .next (st.setCrc 0x0000#16).done

/-- R102: `CRC_ACC <- crcStep(CRC_ACC, D); respond(OK, none)`. -/
def execCrcu (d : Byte) (st : State) : Host.Outcome State Fault Refusal :=
  .next (st.setCrc (crcStep st.crcAcc d)).done

/-- R103: `respond(OK, CRC_ACC ^ 0xFFFF)`. -/
def execCrcr (st : State) : Host.Outcome State Fault Refusal :=
  .next (st.answer (.word (finalCrc st.crcAcc)))

/-- R104: OK if W is the final CRC, else ERR_CRC; CRC_ACC is not written. -/
def execCrcc (w : Word) (st : State) : Host.Outcome State Fault Refusal :=
  .next (st.respond (crcCode st.crcAcc w) none)

/-- `acc16(bs)` (R105): the fold of `crcStep` from the seed. -/
def acc16 (bs : List Byte) : Word := bs.foldl crcStep 0x0000#16

/-- `crc16(bs)` (R105). -/
def crc16 (bs : List Byte) : Word := finalCrc (acc16 bs)

end Sys2Proof.Machine
end

