-- ==== Sys2Proof/Machine/DerivedTime.lean ====
section
/-! DEFINITION. The derived-time commands (spec/42_derived_time.md R160, R165 to R168). None writes any state. -/

namespace Sys2Proof.Machine

/-- What the four commands share (R160, R165): `t <- sel(E, S)`, then the answer `time t`. E = 0 with S = 1 is no command but an
illegal word, ERR_ILLEGAL (R78 (c)); the decoder never gives it. notes/assumptions/10.md. -/
def answerAtSpeed (e : Bool) (s : Speed) (time : Speed → Micros) (st : State) : State :=
  if legalSel e s then st.answer (.micros (time (st.sel e s))) else st.raise .errIllegal

/-- R165: `respond(OK, bitTime(t))`. -/
def execBitt (e : Bool) (s : Speed) (st : State) : Host.Outcome State Fault Refusal :=
  .next (answerAtSpeed e s st.bitTime st)

/-- R166: `respond(OK, resetTime(t))`. -/
def execRstt (e : Bool) (s : Speed) (st : State) : Host.Outcome State Fault Refusal :=
  .next (answerAtSpeed e s st.resetTime st)

/-- R167: `respond(OK, byteTime(t))`. -/
def execBytt (e : Bool) (s : Speed) (st : State) : Host.Outcome State Fault Refusal :=
  .next (answerAtSpeed e s st.byteTime st)

/-- R168: `respond(OK, blockTime(t, W, R))`. -/
def execBlkt (e : Bool) (s : Speed) (r : Bool) (n : Word) (st : State) : Host.Outcome State Fault Refusal :=
  .next (answerAtSpeed e s (fun t => st.blockTime t n r) st)

end Sys2Proof.Machine
end

