-- ==== Sys2Proof/Machine/TimingParams.lean ====
section
/-! DEFINITION. The speed and timing-parameter commands (spec/41_timing_params.md R140 to R146). -/

namespace Sys2Proof.Machine

/-- R140: `SPEED <- S; respond(OK, none)`. -/
def execSpdw (s : Speed) (st : State) : Host.Outcome State Fault Refusal :=
  .next (st.setSpeed s).done

/-- R141: `respond(OK, SPEED)`. -/
def execSpdr (st : State) : Host.Outcome State Fault Refusal :=
  .next (st.answer (.speed st.speed))

/-- R142: `respond(OK, TP[S][P])`, the raw image. -/
def execTprr (s : Speed) (p : Param) (st : State) : Host.Outcome State Fault Refusal :=
  .next (st.answer (.word (st.readTp s p)))

/-- R143: `TP[S][P] <- W; respond(OK, none)`, unvalidated. -/
def execTprw (s : Speed) (p : Param) (w : Word) (st : State) : Host.Outcome State Fault Refusal :=
  .next (st.writeTp s p w).done

/-- R144: `TP[S][P] <- zext_16(I); respond(OK, none)`. -/
def execTpsp (s : Speed) (p : Param) (i : BitVec 4) (st : State) : Host.Outcome State Fault Refusal :=
  .next (st.writeTp s p (presetImage i)).done

/-- TPSC after the encoding (R145): the image is stored, or ERR_RANGE is raised and TP is unchanged. -/
def storeCustom (s : Speed) (p : Param) (r : Option Word) (st : State) : State :=
  match r with
  | some w => (st.writeTp s p w).done
  | none => st.raise .errRange

/-- R145: `r <- encodeCustom(P, S, US)`, then store or raise. -/
def execTpsc (s : Speed) (p : Param) (us : Micros) (st : State) : Host.Outcome State Fault Refusal :=
  .next (storeCustom s p (encodeCustom p s us) st)

/-- R146: `respond(OK, decode(P, S, TP[S][P]))`; the speed is the field S, never SPEED. -/
def execTpgt (s : Speed) (p : Param) (st : State) : Host.Outcome State Fault Refusal :=
  .next (st.answer (.micros (st.value p s)))

end Sys2Proof.Machine
end

