-- ==== Sys2Proof/Machine/Dispatch.lean ====
section
/-! DEFINITION. One arm per command (spec/30_encoding.md R75). -/

namespace Sys2Proof.Machine

def exec (i : Instr) (s : State) : Host.Outcome State Fault Refusal :=
  match i with
  | .crci => Sys2Proof.Machine.execCrci s
  | .crcu d => Sys2Proof.Machine.execCrcu d s
  | .crcr => Sys2Proof.Machine.execCrcr s
  | .crcc w => Sys2Proof.Machine.execCrcc w s
  | .spdw sp => Sys2Proof.Machine.execSpdw sp s
  | .spdr => Sys2Proof.Machine.execSpdr s
  | .tprr sp p => Sys2Proof.Machine.execTprr sp p s
  | .tprw sp p w => Sys2Proof.Machine.execTprw sp p w s
  | .tpsp sp p n => Sys2Proof.Machine.execTpsp sp p n s
  | .tpsc sp p us => Sys2Proof.Machine.execTpsc sp p us s
  | .tpgt sp p => Sys2Proof.Machine.execTpgt sp p s
  | .bitt e sp => Sys2Proof.Machine.execBitt e sp s
  | .rstt e sp => Sys2Proof.Machine.execRstt e sp s
  | .bytt e sp => Sys2Proof.Machine.execBytt e sp s
  | .blkt e sp r n => Sys2Proof.Machine.execBlkt e sp r n s

end Sys2Proof.Machine
end

