-- ==== Sys2Proof/Machine/Step.lean ====
section
/-! DEFINITION. One step: the block takes the host's next turn and executes it whole (spec/30_encoding.md R70,
spec/70_reset_and_hazards.md R200, R210: every command is one step). -/

namespace Sys2Proof.Machine

/-- The block on a turn it has read, the turn itself taken off the host's list. -/
def stepTurn (f : Fetched) (s : State) : Host.Outcome State Fault Refusal :=
  match f with
  | .idle => .next s.quiet
  | .reset more => .next (s.setHost (turnsAfterReset more s.host)).resetInput
  | .command i => exec i s
  | .illegal => .next (s.raise .errIllegal)
  | .rejected r => .refused (refusalOf r)

/-- One step. With no turn to come the block waits and keeps its state (spec/60_exceptions.md R195). -/
def step (s : State) : Host.Outcome State Fault Refusal :=
  match s.host with
  | [] => .next s.quiet
  | t :: rest => stepTurn (fetch t) (s.setHost rest)

/-- `s` with the table's instruction presented by the host as its next turn. -/
def State.withFetchWord (s : State) (nbits w : Nat) : State := s.setHost (tableTurn nbits w :: s.host)

end Sys2Proof.Machine
end

