-- ==== Sys2Proof/Machine/Assembly.lean ====
section
/-! DEFINITION. The spec's assembly language (spec/30_encoding.md R80, R81): one line of text per command. Speeds are written
STD or OD, parameters by their source names, numbers in decimal or 0x hex, US as an exact decimal number. A line that does
not fit the table, or holds a number out of its field's range, is no command. -/

namespace Sys2Proof.Machine

/-- The token being read, if it holds a character. -/
def flushToken (cur : List Char) : List String :=
  match cur with
  | [] => []
  | _ :: _ => [String.ofList cur]

/-- Tokens: separated by spaces; a comma is a token of its own. -/
def lexChars (cs cur : List Char) : List String :=
  match cs with
  | [] => flushToken cur
  | ' ' :: rest => flushToken cur ++ lexChars rest []
  | ',' :: rest => flushToken cur ++ "," :: lexChars rest []
  | c :: rest => lexChars rest (cur ++ [c])

/-- The tokens of a line. -/
def tokens (line : String) : List String := lexChars line.toList []

/-- A digit in base 10 or 16. -/
def digitOf (base : Nat) (c : Char) : Option Nat :=
  let n := c.toNat
  let v := if 48 ≤ n ∧ n ≤ 57 then n - 48 else if 97 ≤ n ∧ n ≤ 102 then n - 87 else if 65 ≤ n ∧ n ≤ 70 then n - 55 else base
  if v < base then some v else none

/-- The value of digits behind a value read so far. -/
def digitsFrom (base acc : Nat) (cs : List Char) : Option Nat :=
  match cs with
  | [] => some acc
  | c :: rest => (digitOf base c).bind fun d => digitsFrom base (base * acc + d) rest

/-- A number, decimal or `0x` hex (R80). -/
def numberOf (tok : String) : Option Nat :=
  match tok.toList with
  | [] => none
  | ['0', 'x'] => none
  | '0' :: 'x' :: ds => digitsFrom 16 0 ds
  | ds => digitsFrom 10 0 ds

/-- A number that fits `n` bits. -/
def bitsOf (n : Nat) (tok : String) : Option (BitVec n) :=
  (numberOf tok).bind fun v => if v < 2 ^ n then some (BitVec.ofNat n v) else none

/-- The characters before the first decimal point, and those after it if there is a point. -/
def splitPoint (cs before : List Char) : List Char × Option (List Char) :=
  match cs with
  | [] => (before, none)
  | '.' :: rest => (before, some rest)
  | c :: rest => splitPoint rest (before ++ [c])

/-- An exact decimal number without a sign: digits, or digits, a point and digits. DESIGN CHOICE: R80 says only "a decimal
number", and here a point has digits on both its sides, so `.5` and `31.` are no numbers (notes/assumptions/15.md). -/
def decimalOf (cs : List Char) : Option Micros :=
  match splitPoint cs [] with
  | ([], _) => none
  | (_ :: _, some []) => none
  | (whole, none) => (digitsFrom 10 0 whole).map fun n : Nat => (n : Rat)
  | (whole, some frac) => (digitsFrom 10 0 (whole ++ frac)).map fun n : Nat => (n : Rat) / 10 ^ frac.length

/-- US as a decimal number of microseconds (R80). DESIGN CHOICE: a leading minus is read, so that the negative values R76
answers ERR_RANGE can be written (notes/assumptions/15.md). -/
def microsOf (tok : String) : Option Micros :=
  match tok.toList with
  | '-' :: cs => (decimalOf cs).map (- ·)
  | cs => decimalOf cs

/-- STD or OD (R80). -/
def speedNamed (tok : String) : Option Speed :=
  match tok with
  | "STD" => some .standard
  | "OD" => some .overdrive
  | _ => none

/-- A parameter by its source name (R80). -/
def paramNamed (tok : String) : Option Param :=
  match tok with
  | "tRSTL" => some .tRSTL
  | "tRSTH" => some .tRSTH
  | "tW0L" => some .tW0L
  | "tW1L" => some .tW1L
  | "tREC" => some .tREC
  | "tMSI" => some .tMSI
  | "tMSP" => some .tMSP
  | "tMSR" => some .tMSR
  | _ => none

/-- What names a speed and a parameter. -/
def onParam {α : Type} (spd par : String) (k : Speed → Param → α) : Option α :=
  (speedNamed spd).bind fun s => (paramNamed par).map fun p => k s p

/-- BLKT with an explicit speed or without. -/
def blktLine (e : Bool) (s : Option Speed) (n : String) (r : Bool) : Option Instr :=
  s.bind fun s => (bitsOf 16 n).map fun n => .blkt e s r n

/-- The command a line of assembly stands for (R80). In formats T and TW the speed is optional: left out it means E = 0,
written it means E = 1 with that speed. -/
def assemble (line : String) : Option Instr :=
  match tokens line with
  | ["CRCI"] => some .crci
  | ["CRCU", d] => (bitsOf 8 d).map .crcu
  | ["CRCR"] => some .crcr
  | ["CRCC", w] => (bitsOf 16 w).map .crcc
  | ["SPDW", s] => (speedNamed s).map .spdw
  | ["SPDR"] => some .spdr
  | ["TPRR", s, ",", p] => onParam s p .tprr
  | ["TPRW", s, ",", p, ",", w] => (bitsOf 16 w).bind fun w => onParam s p fun s p => .tprw s p w
  | ["TPSP", s, ",", p, ",", i] => (bitsOf 4 i).bind fun i => onParam s p fun s p => .tpsp s p i
  | ["TPSC", s, ",", p, ",", us] => (microsOf us).bind fun us => onParam s p fun s p => .tpsc s p us
  | ["TPGT", s, ",", p] => onParam s p .tpgt
  | ["BITT"] => some (.bitt false .standard)
  | ["BITT", s] => (speedNamed s).map (.bitt true)
  | ["RSTT"] => some (.rstt false .standard)
  | ["RSTT", s] => (speedNamed s).map (.rstt true)
  | ["BYTT"] => some (.bytt false .standard)
  | ["BYTT", s] => (speedNamed s).map (.bytt true)
  | ["BLKT", n] => blktLine false (some .standard) n false
  | ["BLKT", n, ",", "RST"] => blktLine false (some .standard) n true
  | ["BLKT", s, ",", n] => blktLine true (speedNamed s) n false
  | ["BLKT", s, ",", n, ",", "RST"] => blktLine true (speedNamed s) n true
  | _ => none

/-! ## Pseudo-instructions (R81) -/

/-- The pseudo-instructions of R81's table. -/
inductive Pseudo where
  /-- `CRC16 b0, ..., bk-1`. -/
  | crc16 (bs : List Byte)
  /-- `CRCV b0, ..., bk-1, w`. -/
  | crcv (bs : List Byte) (w : Word)
  /-- `TPCOPY spd1, par1 -> spd2, par2`. -/
  | tpcopy (s1 : Speed) (p1 : Param) (s2 : Speed) (p2 : Param)
  deriving DecidableEq, Repr

/-- One command of an expansion, as the host will present it. -/
inductive Expanded where
  /-- A command that is known before the expansion runs. -/
  | command (i : Instr)
  /-- `TPRW s, p, v`, with `v` the response value of the command before it. -/
  | tprwOfResponse (s : Speed) (p : Param)
  deriving DecidableEq, Repr

/-- The commands of `CRC16 b0, ..., bk-1`. -/
def crc16Program (bs : List Byte) : List Instr := .crci :: bs.map .crcu ++ [.crcr]

/-- The commands of `CRCV b0, ..., bk-1, w`. -/
def crcvProgram (bs : List Byte) (w : Word) : List Instr := .crci :: bs.map .crcu ++ [.crcc w]

/-- The first command of `TPCOPY spd1, par1 -> spd2, par2`: its response value is `v`. -/
def tpcopyRead (s1 : Speed) (p1 : Param) : Instr := .tprr s1 p1

/-- The second command of TPCOPY, with `v` the response value of the first. -/
def tpcopyWrite (s2 : Speed) (p2 : Param) (v : Word) : Instr := .tprw s2 p2 v

/-- The expansions of R81's table. -/
def expansion (x : Pseudo) : List Expanded :=
  match x with
  | .crc16 bs => (crc16Program bs).map .command
  | .crcv bs w => (crcvProgram bs w).map .command
  | .tpcopy s1 p1 s2 p2 => [.command (tpcopyRead s1 p1), .tprwOfResponse s2 p2]

/-- Tokens with a comma between each two of them, at least one. -/
def commaList (toks : List String) : Option (List String) :=
  match toks with
  | [t] => some [t]
  | t :: "," :: rest => (commaList rest).map (t :: ·)
  | _ => none

/-- As `commaList`, or nothing at all: R81's k may be 0 (V-CRC-1 of spec/95_test_vectors.md is CRC16 of no bytes). -/
def commaListOrNone (toks : List String) : Option (List String) :=
  match toks with
  | [] => some []
  | _ :: _ => commaList toks

/-- The bytes that tokens name. -/
def bytesNamed (toks : List String) : Option (List Byte) :=
  match toks with
  | [] => some []
  | t :: rest => (bitsOf 8 t).bind fun b => (bytesNamed rest).map (b :: ·)

/-- CRCV's operands: the last is the word `w`, those before it are bytes. -/
def crcvOf (toks : List String) : Option Pseudo :=
  (bytesNamed toks.dropLast).bind fun bs => toks.getLast?.bind fun t => (bitsOf 16 t).map fun w => .crcv bs w

/-- The pseudo-instruction a line of assembly stands for (R81). -/
def assemblePseudo (line : String) : Option Pseudo :=
  match tokens line with
  | "CRC16" :: ops => (commaListOrNone ops).bind fun ts => (bytesNamed ts).map .crc16
  | "CRCV" :: ops => (commaList ops).bind crcvOf
  | ["TPCOPY", s1, ",", p1, "->", s2, ",", p2] =>
    (onParam s1 p1 fun s p => (s, p)).bind fun a => onParam s2 p2 fun s p => .tpcopy a.1 a.2 s p
  | _ => none

end Sys2Proof.Machine
end

