-- ==== Sys2Proof/Machine/HostUse.lean ====
section
/-! DEFINITION. What the host does with the block: presenting commands (spec/30_encoding.md R70), the source's contracts as
commands (R82), the upload and readback checks (spec/40_crc16.md R110, R111), the boot sequence
(spec/70_reset_and_hazards.md R203), running a pseudo-instruction (spec/30_encoding.md R81), and how it composes a wait (spec/42_derived_time.md R172). -/

namespace Sys2Proof.Machine

/-- The host will present these commands, one a turn, and nothing after them. -/
def State.present (st : State) (is : List Instr) : State := st.setHost (is.map encode)

/-! ## Pseudo-instructions (R81) -/

/-- The command the host presents, with the response it received last: TPCOPY's TPRW stores the value of that response, and
without one there is nothing to store. -/
def instrOf (last : Option Response) (x : Expanded) : Option Instr :=
  match x with
  | .command i => some i
  | .tprwOfResponse s p =>
    match last with
    | some ⟨.ok, some (.word v)⟩ => some (tpcopyWrite s p v)
    | _ => none

/-- The host presents the commands of an expansion, each after the response to the one before it (R70), and nothing else.
The state after the last of them; `none` if the host has no command to present or the machine stops. -/
def runExpansion (xs : List Expanded) (st : State) : Option State :=
  match xs with
  | [] => some st
  | x :: rest =>
    match instrOf st.response x with
    | none => none
    | some i =>
      match step (st.present [i]) with
      | .next t => runExpansion rest t
      | .fault _ => none
      | .refused _ => none

/-- R81: a pseudo-instruction's effect is exactly the effect of its expansion, and its response that of the last command. -/
def runPseudo (x : Pseudo) (st : State) : Option State := runExpansion (expansion x) st

/-! ## The source's contracts (R82) -/

/-- `get(parameter, speed) -> microseconds`. -/
def contractGet (p : Param) (s : Speed) : Instr := .tpgt s p

/-- `setPreset(parameter, speed, index)`. -/
def contractSetPreset (p : Param) (s : Speed) (i : BitVec 4) : Instr := .tpsp s p i

/-- `setCustom(parameter, speed, microseconds)`; it fails with ERR_RANGE. -/
def contractSetCustom (p : Param) (s : Speed) (us : Micros) : Instr := .tpsc s p us

/-- E and S of a derived-time command: in the active speed, or in a speed asked for. -/
def selOf (s : Option Speed) : Bool × Speed :=
  match s with
  | none => (false, .standard)
  | some s => (true, s)

/-- `bitTime`. -/
def contractBitTime (s : Option Speed) : Instr := .bitt (selOf s).1 (selOf s).2

/-- `resetTime`. -/
def contractResetTime (s : Option Speed) : Instr := .rstt (selOf s).1 (selOf s).2

/-- `byteTime`. -/
def contractByteTime (s : Option Speed) : Instr := .bytt (selOf s).1 (selOf s).2

/-- The bus-occupancy term of a block transfer at the current speed. -/
def contractBlockTime (n : Word) (reset : Bool) : Instr := .blkt false .standard reset n

/-- `crc16(bytes)`. -/
def contractCrc16 (bs : List Byte) : List Instr := crc16Program bs

/-! ## The protocol's CRC checks -/

/-- R110: the transmitted bytes, header first, against the CRC word the device returned. -/
def uploadCheck (sent : List Byte) (w : Word) : List Instr := crcvProgram sent w

/-- R111: the result-length byte, then the result bytes; the dummy byte before them is not shifted in. -/
def readbackCheck (len : Byte) (results : List Byte) (w : Word) : List Instr := crcvProgram (len :: results) w

/-- The CRC word of two bytes in the order they arrived (spec/20_memory.md R55). -/
def receivedCrc (b0 b1 : Byte) : Word := deser16 b0 b1

/-! ## Boot (R203) -/

/-- Steps 1 to 3 of R203: the images the host uses, the speed the bus is at, and the seed before the first CRC. -/
def bootProgram (images : List (Speed × Param × Word)) (busSpeed : Speed) : List Instr :=
  images.map (fun x => .tprw x.1 x.2.1 x.2.2) ++ [.spdw busSpeed, .crci]

/-! ## Wait sizing (R172) -/

/-- R172: fixed overhead + (per-unit overhead x primitives) + the bus occupancy the block answered. The two overheads are
the host's constants, which the source does not give: they are arguments. -/
def hostWait (fixed perUnit : Micros) (units : Nat) (occupancy : Micros) : Micros :=
  fixed + perUnit * units + occupancy

end Sys2Proof.Machine
end

