-- ==== Sys2Proof/Safety.lean ====
section
/-! DEFINITION. What counts as a safe run, in the terms statements use. -/

namespace Sys2Proof.Machine

/-- A response of the port: a code other than OK carries no value (spec/60_exceptions.md R180), and a time is a
non-negative number of microseconds (spec/00_scope.md R12). -/
def Response.Sound (r : Response) : Prop :=
  (r.code ≠ .ok → r.value = none) ∧ ∀ q, r.value = some (.micros q) → 0 ≤ q

/-- The invariant of the machine: whatever response it holds is sound. Every value of SPEED, of an image and of CRC_ACC is
legal (spec/10_state.md R24, R28), so the invariant has nothing to say of them. -/
def State.Inv (st : State) : Prop := ∀ r, st.response = some r → r.Sound

/-- The two states hold the same SPEED, images and CRC_ACC: all the state the block has (spec/10_state.md R20). -/
def SameRegisters (a b : State) : Prop := a.speed = b.speed ∧ a.tp = b.tp ∧ a.crcAcc = b.crcAcc

/-- The command completes, answers `(c, v)`, and writes nothing: SPEED, every image, CRC_ACC and the host's turns stay. -/
def AnswersOnly (i : Instr) (s : State) (c : Code) (v : Option Value) : Prop :=
  ∃ t, exec i s = .next t ∧ SameRegisters s t ∧ t.host = s.host ∧ t.response = some ⟨c, v⟩

/-- The command completes, answers OK without a value, stores `w` as the image of (sp, p), and writes nothing else: every
other image, SPEED, CRC_ACC and the host's turns stay. -/
def WritesImage (i : Instr) (s : State) (sp : Speed) (p : Param) (w : Word) : Prop :=
  ∃ t, exec i s = .next t ∧ t.readTp sp p = w ∧
    (∀ sp' p', ¬(sp' = sp ∧ p' = p) → t.readTp sp' p' = s.readTp sp' p') ∧
    t.speed = s.speed ∧ t.crcAcc = s.crcAcc ∧ t.host = s.host ∧ t.response = some ⟨.ok, none⟩

/-- An image one of the validating setters stores (spec/10_state.md R28): a preset index 0 to 15, or a custom magnitude
inside the accepted range. -/
def SetterImage (p : Param) (s : Speed) (w : Word) : Prop :=
  (imageC w = false ∧ imageF w ≤ 15) ∨ (imageC w = true ∧ customMinMag p s ≤ imageF w ∧ imageF w ≤ customMaxMag p s)

/-- Every image is one a validating setter stores: what a host has that never uses TPRW. -/
def State.SetterImages (st : State) : Prop := ∀ s p, SetterImage p s (st.readTp s p)

/-- A run of `k` steps ends in `t`: it met neither a fault nor a refusal. -/
def RunsTo (k : Nat) (s t : State) : Prop :=
  match k with
  | 0 => t = s
  | k + 1 => ∃ u, step s = .next u ∧ RunsTo k u t

end Sys2Proof.Machine
end

