-- ==== Sys2Proof/Certificates/Slice0/Obligations.lean ====
section
/-! DEFINITION. The statements about the model, from the numbered rules of spec/. `exec` is one command, `step` one turn of
the host, `fetch` the decoder on a turn. Where a statement uses a value the spec leaves open (`presetUs`, `customMinMag`,
`customMaxMag`) it holds for every value of it: the constants behind them have no body (notes/assumptions/5.md, 6.md).
The CRC statements rest on the polynomial constant and bit order the spec adopts from general knowledge (93 G1, G2;
notes/assumptions/9.md) through `crcStep` alone. -/

open Sys2Proof Sys2Proof.Machine

/-! ## Helpers of the statements, written from the spec's tables and not from the decoder -/

/-- The reserved-zero bits of the format of an OP, as spec/30_encoding.md R74 draws the formats (OP and the letters 0, every
reserved bit 1). -/
def reservedZeroBits (op : Nat) : Word :=
  match op with
  | 0x2 => 0b0000_1111_0000_0000#16
  | 0x5 => 0b0000_0111_1111_1111#16
  | 0x7 => 0b0000_0000_1111_1111#16
  | 0x8 => 0b0000_0000_1111_1111#16
  | 0x9 => 0b0000_0000_1111_0000#16
  | 0xA => 0b0000_0000_1111_1111#16
  | 0xB => 0b0000_0000_1111_1111#16
  | 0xC => 0b0000_0110_1111_1111#16
  | 0xD => 0b0000_0110_1111_1111#16
  | 0xE => 0b0000_0110_1111_1111#16
  | 0xF => 0b0000_0100_1111_1111#16
  | _ => 0b0000_1111_1111_1111#16

/-- R78: (a) OP = 0, (b) a reserved-zero bit of the format is 1, (c) format T or TW with E = 0 and S = 1. -/
def IllegalWord (cw : Word) : Prop :=
  cw.toNat / 0x1000 = 0 ∨ cw &&& reservedZeroBits (cw.toNat / 0x1000) ≠ 0#16 ∨
    (0xC ≤ cw.toNat / 0x1000 ∧ cw.getLsbD 8 = false ∧ cw.getLsbD 11 = true)

/-- The command word OP, S, P with every other bit 0 (formats P, PW, PI, PQ). -/
def wordSP (op : Nat) (s : Speed) (p : Param) : Word :=
  BitVec.ofNat 16 (0x1000 * op + 0x0800 * s.code + 0x0100 * p.code)

/-- The command word OP, S, R, E with every other bit 0 (formats T and TW). -/
def wordSRE (op : Nat) (s : Speed) (r e : Bool) : Word :=
  BitVec.ofNat 16 (0x1000 * op + 0x0800 * s.code + 0x0200 * r.toNat + 0x0100 * e.toNat)

/-- E and S make one of the three speed selections of R77. -/
def LegalSelection (e : Bool) (s : Speed) : Prop := e = true ∨ s = .standard

/-- `m` is the magnitude of `us`: us * 16 rounded to the nearest integer, a tie upward (R10, R130). -/
def IsMagnitude (us : Micros) (m : Nat) : Prop := (m : Rat) ≤ us * 16 + 1 / 2 ∧ us * 16 + 1 / 2 < (m : Rat) + 1

/-- The magnitude `m` is accepted for (p, s) (R130). -/
def AcceptedMagnitude (p : Param) (s : Speed) (m : Nat) : Prop :=
  m ≤ 0x7FFF ∧ customMinMag p s ≤ m ∧ m ≤ customMaxMag p s

/-- The low and the high byte of a word, as numbers (R53, R57). -/
def lowByte (w : Word) : Byte := BitVec.ofNat 8 w.toNat
def highByte (w : Word) : Byte := BitVec.ofNat 8 (w.toNat / 0x100)

/-- The speeds and parameters as R80 has them written. -/
def speedText : Speed → String
  | .standard => "STD"
  | .overdrive => "OD"
def paramText : Param → String
  | .tRSTL => "tRSTL"
  | .tRSTH => "tRSTH"
  | .tW0L => "tW0L"
  | .tW1L => "tW1L"
  | .tREC => "tREC"
  | .tMSI => "tMSI"
  | .tMSP => "tMSP"
  | .tMSR => "tMSR"

/-- `c` is the digit of value `d` in base `base`. That hex digits may be of either case is the model's choice
(notes/assumptions/15.md). -/
def IsDigit (base : Nat) (c : Char) (d : Nat) : Prop :=
  d < base ∧ ("0123456789ABCDEF".toList[d]? = some c ∨ "0123456789abcdef".toList[d]? = some c)

/-- `cs` is a row of at least one digit whose value is `v`. -/
def IsDigits (base : Nat) (cs : List Char) (v : Nat) : Prop :=
  cs ≠ [] ∧ ∃ ds : List Nat, List.Forall₂ (IsDigit base) cs ds ∧ v = ds.foldl (fun a d => base * a + d) 0

/-- `tok` is the number `v`, in decimal or in `0x` hex (R80). -/
def IsNumber (tok : String) (v : Nat) : Prop :=
  IsDigits 10 tok.toList v ∨ ∃ cs, tok.toList = '0' :: 'x' :: cs ∧ IsDigits 16 cs v

/-- `tok` is the exact decimal number `us`: digits, or digits, a point and digits (R80; notes/assumptions/15.md for the
digits on both sides of the point). -/
def IsDecimal (tok : String) (us : Micros) : Prop :=
  (∃ v, IsDigits 10 tok.toList v ∧ us = v) ∨
    ∃ whole frac v w, tok.toList = whole ++ '.' :: frac ∧ IsDigits 10 whole v ∧ IsDigits 10 frac w ∧
      us = v + (w : Rat) / 10 ^ frac.length

/-- The line stands for a well-formed command, and this is the turn in which the host presents it. -/
def AssemblesTo (line : String) (t : Turn) : Prop :=
  ∃ i : Instr, assemble line = some i ∧ i.wf = true ∧ encode i = t

/-! ## Encoding -/

/-- spec/30_encoding.md R72 to R80: decoding the turn that presents a well-formed command gives that command back, with every
operand at every value the encoding admits. -/
def Obligations.DecodeOfEncodeIsTheCommand : Prop :=
  ∀ i : Instr, i.wf = true → fetch (encode i) = .command i

/-- R78, last sentence, the other way round: a turn that decodes to a command is the one turn that presents it, and the
command is well formed. No bit of a word or operand is ignored. -/
def Obligations.EncodeOfDecodeIsTheTurn : Prop :=
  ∀ (t : Turn) (i : Instr), fetch t = .command i → i.wf = true ∧ encode i = t

/-- R78 whole: with its operand, an illegal word is answered ERR_ILLEGAL, writes no state and consumes the operand; every
other word is exactly one command. -/
def Obligations.IllegalWordsAreAnsweredAndConsumed : Prop :=
  ∀ (cw : Word) (x : Operand) (s : State) (rest : List Turn),
    x.kind = operandKind cw → s.host = (.word cw :: x.items) :: rest →
    (IllegalWord cw → ∃ t, step s = .next t ∧ SameRegisters s t ∧ t.host = rest ∧ t.response = some ⟨.errIllegal, none⟩) ∧
    (¬ IllegalWord cw → ∃ i : Instr, i.wf = true ∧ encode i = .word cw :: x.items ∧
      (∀ j : Instr, j.wf = true → encode j = .word cw :: x.items → j = i) ∧ step s = exec i (s.setHost rest))

/-- R72: the operand that follows a command word is fixed by OP alone. -/
def Obligations.OperandIsFixedByOpAlone : Prop :=
  ∀ cw : Word, operandKind cw =
    if cw.toNat / 0x1000 = 0x4 ∨ cw.toNat / 0x1000 = 0x8 ∨ cw.toNat / 0x1000 = 0xF then .word
    else if cw.toNat / 0x1000 = 0xA then .us else .none

/-- A few words written out from R74, R80 and the vectors of spec/95_test_vectors.md decode to what they stand for. -/
def Obligations.SpecWordsDecode : Prop :=
  fetch [.word 0x2066#16] = .command (.crcu 0x66#8) ∧
  fetch [.word 0x4000#16, .word 0x7CDE#16] = .command (.crcc 0x7CDE#16) ∧
  fetch [.word 0x5800#16] = .command (.spdw .overdrive) ∧
  fetch [.word 0x7F00#16] = .command (.tprr .overdrive .tMSR) ∧
  fetch [.word 0x9C03#16] = .command (.tpsp .overdrive .tREC 3#4) ∧
  fetch [.word 0xAA00#16, .us 31.5] = .command (.tpsc .overdrive .tW0L 31.5) ∧
  fetch [.word 0xC100#16] = .command (.bitt true .standard) ∧
  fetch [.word 0xFB00#16, .word 2#16] = .command (.blkt true .overdrive true 2#16) ∧
  fetch [.word 0xC800#16] = .illegal ∧
  fetch [.word 0x9C13#16] = .illegal

/-- spec/20_memory.md R53: images are serialised low byte first, and reading the two bytes back gives the image. -/
def Obligations.ImagesAreSerialisedLowByteFirst : Prop :=
  (∀ w : Word, ser16 w = [BitVec.ofNat 8 w.toNat, BitVec.ofNat 8 (w.toNat / 0x100)]) ∧
  (∀ b0 b1 : Byte, (deser16 b0 b1).toNat = b0.toNat + 0x100 * b1.toNat) ∧
  ∀ w : Word, ∀ b0 b1 : Byte, ser16 w = [b0, b1] → deser16 b0 b1 = w

/-- R57: over a byte stream every word goes low byte first, the command word before its operand word, and the bytes are read
back as the command. Every well-formed command but TPSC has bytes; that TPSC has none, its US being no bit pattern (R76), is
the model's choice (notes/assumptions/8.md). -/
def Obligations.ByteStreamCarriesTheWords : Prop :=
  ∀ i : Instr, i.wf = true →
    (∃ sp p us, i = .tpsc sp p us ∧ bytesOfTurn (encode i) = none) ∨
    (∃ cw, encode i = [.word cw] ∧ bytesOfTurn (encode i) = some [lowByte cw, highByte cw] ∧
      fetchBytes [lowByte cw, highByte cw] = .command i) ∨
    ∃ cw w, encode i = [.word cw, .word w] ∧
      bytesOfTurn (encode i) = some [lowByte cw, highByte cw, lowByte w, highByte w] ∧
      fetchBytes [lowByte cw, highByte cw, lowByte w, highByte w] = .command i

/-- R80's table, row by row: the line of each row, with every speed, parameter and number its operands can be, stands for the
command with the encoding in that row; and no line at all stands for an ill-formed one. -/
def Obligations.AssembledLinesAreCommands : Prop :=
  (AssemblesTo "CRCI" [.word 0x1000#16] ∧ AssemblesTo "CRCR" [.word 0x3000#16] ∧ AssemblesTo "SPDR" [.word 0x6000#16]) ∧
  (∀ d v, IsNumber d v → v < 2 ^ 8 → AssemblesTo ("CRCU " ++ d) [.word (BitVec.ofNat 16 (0x2000 + v))]) ∧
  (∀ w v, IsNumber w v → v < 2 ^ 16 → AssemblesTo ("CRCC " ++ w) [.word 0x4000#16, .word (BitVec.ofNat 16 v)]) ∧
  (∀ s, AssemblesTo ("SPDW " ++ speedText s) [.word (BitVec.ofNat 16 (0x5000 + 0x0800 * s.code))]) ∧
  (∀ s p, AssemblesTo ("TPRR " ++ speedText s ++ ", " ++ paramText p) [.word (wordSP 0x7 s p)]) ∧
  (∀ s p w v, IsNumber w v → v < 2 ^ 16 →
    AssemblesTo ("TPRW " ++ speedText s ++ ", " ++ paramText p ++ ", " ++ w) [.word (wordSP 0x8 s p), .word (BitVec.ofNat 16 v)]) ∧
  (∀ s p i v, IsNumber i v → v < 2 ^ 4 →
    AssemblesTo ("TPSP " ++ speedText s ++ ", " ++ paramText p ++ ", " ++ i) [.word (wordSP 0x9 s p + BitVec.ofNat 16 v)]) ∧
  (∀ s p us q, IsDecimal us q →
    AssemblesTo ("TPSC " ++ speedText s ++ ", " ++ paramText p ++ ", " ++ us) [.word (wordSP 0xA s p), .us q]) ∧
  (∀ s p, AssemblesTo ("TPGT " ++ speedText s ++ ", " ++ paramText p) [.word (wordSP 0xB s p)]) ∧
  (∀ name op, (name, op) ∈ [("BITT", 0xC), ("RSTT", 0xD), ("BYTT", 0xE)] →
    AssemblesTo name [.word (wordSRE op .standard false false)] ∧
    ∀ s, AssemblesTo (name ++ " " ++ speedText s) [.word (wordSRE op s false true)]) ∧
  (∀ n v, IsNumber n v → v < 2 ^ 16 → ∀ rst r, (rst, r) ∈ [("", false), (", RST", true)] →
    AssemblesTo ("BLKT " ++ n ++ rst) [.word (wordSRE 0xF .standard r false), .word (BitVec.ofNat 16 v)] ∧
    ∀ s, AssemblesTo ("BLKT " ++ speedText s ++ ", " ++ n ++ rst) [.word (wordSRE 0xF s r true), .word (BitVec.ofNat 16 v)]) ∧
  ∀ (line : String) (i : Instr), assemble line = some i → i.wf = true

/-! ## The step -/

/-- A step runs the command the host presents: R70. The turn is taken off the host's list and nothing else is added. -/
def Obligations.StepRunsThePresentedCommand : Prop :=
  ∀ (s : State) (i : Instr) (rest : List Turn), i.wf = true → s.host = encode i :: rest →
    step s = exec i (s.setHost rest)

/-- R71, its third sentence: a command word without the operand its OP calls for is refused. -/
def Obligations.CommandWithoutOperandIsRefused : Prop :=
  ∀ (s : State) (cw : Word) (rest : List Turn), operandKind cw ≠ .none → s.host = [.word cw] :: rest →
    step s = .refused .operandMissing

/-- spec/70_reset_and_hazards.md R208: a second command presented before the response to the first is refused, whether the
first word is legal or not. -/
def Obligations.SecondOutstandingCommandIsRefused : Prop :=
  ∀ (s : State) (cw cw2 : Word) (x : Operand) (more : Turn) (rest : List Turn), x.kind = operandKind cw →
    s.host = (.word cw :: x.items ++ .word cw2 :: more) :: rest → step s = .refused .presentedBeforeResponse

/-- R200: reset between turns sets every state element to its value of R31, whatever the state was; between a command word
and its response (in the operand's place, or behind the operand) it is refused. The host's later turns are its own. -/
def Obligations.ResetInputSetsEveryElement : Prop :=
  (∀ (s : State) (rest : List Turn), s.host = [.reset] :: rest →
    ∃ t, step s = .next t ∧ t.speed = .standard ∧ (∀ sp p, t.readTp sp p = 0x0006#16) ∧ t.crcAcc = 0x0000#16 ∧
      t.host = rest) ∧
  (∀ (s : State) (cw : Word) (x : Operand) (more : Turn) (rest : List Turn), x.kind = operandKind cw →
    s.host = (.word cw :: x.items ++ .reset :: more) :: rest → step s = .refused .resetDuringCommand) ∧
  ∀ (s : State) (cw : Word) (more : Turn) (rest : List Turn), operandKind cw ≠ .none →
    s.host = (.word cw :: .reset :: more) :: rest → step s = .refused .resetDuringCommand

/-- spec/10_state.md R31: the values of every state element after reset. -/
def Obligations.ResetValues : Prop :=
  State.reset.speed = .standard ∧ (∀ s p, State.reset.readTp s p = 0x0006#16) ∧ State.reset.crcAcc = 0x0000#16

/-- A step never stops the machine but on a turn that has no meaning: every other step answers a next state. The block raises
no fault (R187, R188). -/
def Obligations.OnlyMeaninglessTurnsAreRefused : Prop :=
  ∀ s : State, (∃ t, step s = .next t) ∨
    ∃ turn rest r, s.host = turn :: rest ∧ fetch turn = .rejected r ∧ step s = .refused (refusalOf r)

/-- R61: commands take effect in the order the host presents them, each on the state all earlier ones left. A run of
`is` and then `i` is the run of `is`, then `i` on the state it left. -/
def Obligations.CommandsTakeEffectInOrder : Prop :=
  ∀ (is : List Instr) (i : Instr) (s t : State), (∀ j ∈ is, j.wf = true) → i.wf = true →
    (RunsTo (is.length + 1) (s.present (is ++ [i])) t ↔
      ∃ u, RunsTo is.length (s.present is) u ∧ exec i u = .next t)

/-! ## CRC-16 commands (spec/40_crc16.md) -/

/-- R100. -/
def Obligations.CrciSeedsTheAccumulator : Prop :=
  (∀ s : State, ∃ t, exec .crci s = .next t ∧ t.crcAcc = 0x0000#16 ∧ t.speed = s.speed ∧ t.tp = s.tp ∧ t.host = s.host ∧
    t.response = some ⟨.ok, none⟩) ∧
  ∀ cw : Word, cw.toNat / 0x1000 = 0x1 → fetch [.word cw] = if cw = 0x1000#16 then .command .crci else .illegal

/-- R102. -/
def Obligations.CrcuShiftsOneByteIn : Prop :=
  (∀ (s : State) (d : Byte), ∃ t, exec (.crcu d) s = .next t ∧ t.crcAcc = crcStep s.crcAcc d ∧ t.speed = s.speed ∧
    t.tp = s.tp ∧ t.host = s.host ∧ t.response = some ⟨.ok, none⟩) ∧
  ∀ cw : Word, cw.toNat / 0x1000 = 0x2 → fetch [.word cw] =
    if cw.toNat / 0x100 = 0x20 then .command (.crcu (BitVec.ofNat 8 cw.toNat)) else .illegal

/-- R101: the byte step is eight rounds, bit 0 first, with the reflected constant 0xA001. The constant and the bit order are
the spec's adopted reading (93 G1, G2; notes/assumptions/9.md). -/
def Obligations.CrcStepIsTheBitSerialLoop : Prop :=
  ∀ (acc : Word) (b : Byte) (a : Nat → Word), a 0 = acc →
    (∀ i, i < 8 → a (i + 1) = if (a i).getLsbD 0 ^^ b.getLsbD i then (a i >>> 1) ^^^ 0xA001#16 else a i >>> 1) →
    crcStep acc b = a 8

/-- R103. -/
def Obligations.CrcrReadsTheFinalCrc : Prop :=
  (∀ s : State, AnswersOnly .crcr s .ok (some (.word (s.crcAcc ^^^ 0xFFFF#16)))) ∧
  ∀ cw : Word, cw.toNat / 0x1000 = 0x3 → fetch [.word cw] = if cw = 0x3000#16 then .command .crcr else .illegal

/-- R104. -/
def Obligations.CrccComparesWithTheFinalCrc : Prop :=
  (∀ (s : State) (w : Word), w = s.crcAcc ^^^ 0xFFFF#16 → AnswersOnly (.crcc w) s .ok none) ∧
  (∀ (s : State) (w : Word), w ≠ s.crcAcc ^^^ 0xFFFF#16 → AnswersOnly (.crcc w) s .errCrc none) ∧
  ∀ cw w : Word, cw.toNat / 0x1000 = 0x4 →
    fetch [.word cw, .word w] = if cw = 0x4000#16 then .command (.crcc w) else .illegal

/-- R106: the byte-wise form, with the table of `crcStep` from 0 and its first entries. -/
def Obligations.CrcStepHasTheByteWiseForm : Prop :=
  (∀ (acc : Word) (b : Byte), crcStep acc b = (acc >>> 8) ^^^ crcStep 0x0000#16 (BitVec.ofNat 8 (acc ^^^ b.setWidth 16).toNat)) ∧
  [0, 1, 2, 3, 4, 5, 6, 7].map (fun k => crcStep 0x0000#16 (BitVec.ofNat 8 k)) =
    [0x0000#16, 0xC0C1#16, 0xC181#16, 0x0140#16, 0xC301#16, 0x03C0#16, 0x0280#16, 0xC241#16]

/-- R107: linearity over GF(2), and that leading zero bytes are invisible. -/
def Obligations.CrcIsLinearAndBlindToLeadingZeros : Prop :=
  (∀ (a1 a2 : Word) (b1 b2 : Byte), crcStep (a1 ^^^ a2) (b1 ^^^ b2) = crcStep a1 b1 ^^^ crcStep a2 b2) ∧
  (∀ k : Nat, crc16 (List.replicate k 0x00#8) = 0xFFFF#16) ∧
  ∀ (k : Nat) (bs : List Byte), crc16 (List.replicate k 0x00#8 ++ bs) = crc16 bs

/-- R108: flipping any one bit of any byte sequence changes its CRC. -/
def Obligations.SingleBitFlipChangesTheCrc : Prop :=
  ∀ (pre post : List Byte) (b : Byte) (j : Fin 8),
    crc16 (pre ++ (b ^^^ (1#8 <<< j.val)) :: post) ≠ crc16 (pre ++ b :: post)

/-- R109: appending its CRC low byte first to a byte sequence gives the fixed residue. -/
def Obligations.AppendedCrcGivesTheResidue : Prop :=
  ∀ bs : List Byte, acc16 (bs ++ ser16 (crc16 bs)) = 0xB001#16 ∧ crc16 (bs ++ ser16 (crc16 bs)) = 0x4FFE#16

/-- R105, R81: presented with CRC16 b0, ..., bk-1 in any state, the machine ends with the answer (OK, crc16(bs)) and CRC_ACC =
acc16(bs), whatever CRC_ACC held before, and with everything else unchanged. -/
def Obligations.Crc16ProgramAnswersTheCrc : Prop :=
  ∀ (bs : List Byte) (s : State), ∃ t, RunsTo (bs.length + 2) (s.present (crc16Program bs)) t ∧
    t.crcAcc = acc16 bs ∧ t.response = some ⟨.ok, some (.word (crc16 bs))⟩ ∧ t.speed = s.speed ∧ t.tp = s.tp ∧ t.host = []

/-- R110, R111: the upload and the readback check answer OK exactly when the received word is the CRC of the bytes they
cover, and ERR_CRC otherwise. -/
def Obligations.CrcChecksAcceptExactlyTheCrc : Prop :=
  ∀ (len : Byte) (bs : List Byte) (w : Word) (s : State),
    (∃ t, RunsTo (bs.length + 2) (s.present (uploadCheck bs w)) t ∧
      t.response = some ⟨if w = crc16 bs then .ok else .errCrc, none⟩) ∧
    ∃ t, RunsTo (bs.length + 3) (s.present (readbackCheck len bs w)) t ∧
      t.response = some ⟨if w = crc16 (len :: bs) then .ok else .errCrc, none⟩

/-- spec/70_reset_and_hazards.md R204: neither CRCR nor CRCC clears the accumulator, so without a CRCI the next computation
gives the CRC of the bytes of both. -/
def Obligations.CrcContinuesWithoutCrci : Prop :=
  ∀ (xs ys : List Byte) (w : Word) (s : State), s.crcAcc = acc16 xs →
    ∃ t, RunsTo (ys.length + 3) (s.present ([.crcr, .crcc w] ++ ys.map .crcu ++ [.crcr])) t ∧
      t.response = some ⟨.ok, some (.word (crc16 (xs ++ ys)))⟩

/-! ## Speed and timing-parameter commands (spec/41_timing_params.md) -/

/-- R140. -/
def Obligations.SpdwSetsTheSpeed : Prop :=
  (∀ (s : State) (sp : Speed), ∃ t, exec (.spdw sp) s = .next t ∧ t.speed = sp ∧ t.tp = s.tp ∧ t.crcAcc = s.crcAcc ∧
    t.host = s.host ∧ t.response = some ⟨.ok, none⟩) ∧
  ∀ cw : Word, cw.toNat / 0x1000 = 0x5 → fetch [.word cw] =
    if cw = 0x5000#16 then .command (.spdw .standard) else if cw = 0x5800#16 then .command (.spdw .overdrive) else .illegal

/-- R141. -/
def Obligations.SpdrReadsTheSpeed : Prop :=
  (∀ s : State, AnswersOnly .spdr s .ok (some (.speed s.speed))) ∧
  ∀ cw : Word, cw.toNat / 0x1000 = 0x6 → fetch [.word cw] = if cw = 0x6000#16 then .command .spdr else .illegal

/-- R142. -/
def Obligations.TprrReadsTheRawImage : Prop :=
  (∀ (s : State) (sp : Speed) (p : Param), AnswersOnly (.tprr sp p) s .ok (some (.word (s.readTp sp p)))) ∧
  (∀ sp p, fetch [.word (wordSP 0x7 sp p)] = .command (.tprr sp p)) ∧
  ∀ cw : Word, cw.toNat / 0x1000 = 0x7 → cw.toNat % 0x100 ≠ 0 → fetch [.word cw] = .illegal

/-- R143. -/
def Obligations.TprwStoresAnyImage : Prop :=
  (∀ (s : State) (sp : Speed) (p : Param) (w : Word), WritesImage (.tprw sp p w) s sp p w) ∧
  (∀ sp p w, fetch [.word (wordSP 0x8 sp p), .word w] = .command (.tprw sp p w)) ∧
  ∀ cw w : Word, cw.toNat / 0x1000 = 0x8 → cw.toNat % 0x100 ≠ 0 → fetch [.word cw, .word w] = .illegal

/-- R144. -/
def Obligations.TpspStoresThePresetIndex : Prop :=
  (∀ (s : State) (sp : Speed) (p : Param) (i : BitVec 4), WritesImage (.tpsp sp p i) s sp p (BitVec.ofNat 16 i.toNat)) ∧
  (∀ sp p, ∀ i : BitVec 4, fetch [.word (wordSP 0x9 sp p + BitVec.ofNat 16 i.toNat)] = .command (.tpsp sp p i)) ∧
  ∀ cw : Word, cw.toNat / 0x1000 = 0x9 → cw.toNat / 0x10 % 0x10 ≠ 0 → fetch [.word cw] = .illegal

/-- R145, R130: a non-negative time whose rounded magnitude is accepted is stored as 0x8000 + m; every other time is answered
ERR_RANGE and changes nothing. -/
def Obligations.TpscStoresAnAcceptedCustomTime : Prop :=
  (∀ (s : State) (sp : Speed) (p : Param) (us : Micros) (m : Nat), 0 ≤ us → IsMagnitude us m → AcceptedMagnitude p sp m →
    WritesImage (.tpsc sp p us) s sp p (BitVec.ofNat 16 (0x8000 + m))) ∧
  (∀ (s : State) (sp : Speed) (p : Param) (us : Micros) (m : Nat), 0 ≤ us → IsMagnitude us m → ¬ AcceptedMagnitude p sp m →
    AnswersOnly (.tpsc sp p us) s .errRange none) ∧
  (∀ (s : State) (sp : Speed) (p : Param) (us : Micros), us < 0 → AnswersOnly (.tpsc sp p us) s .errRange none) ∧
  (∀ sp p us, fetch [.word (wordSP 0xA sp p), .us us] = .command (.tpsc sp p us)) ∧
  ∀ (cw : Word) (us : Micros), cw.toNat / 0x1000 = 0xA → cw.toNat % 0x100 ≠ 0 → fetch [.word cw, .us us] = .illegal

/-- The source's one range point (R7, R145): tW0L at Overdrive takes every time from the minimum on up to 31.5 us and the half
step above it, and no time from 31.53125 us on. -/
def Obligations.TpscRangeOfTW0LOverdrive : Prop :=
  (∀ (s : State) (us : Micros), 504 ≤ us * 16 + 1 / 2 → us * 16 + 1 / 2 < 505 →
    WritesImage (.tpsc .overdrive .tW0L us) s .overdrive .tW0L 0x81F8#16) ∧
  ∀ (s : State) (us : Micros), 505 ≤ us * 16 + 1 / 2 → AnswersOnly (.tpsc .overdrive .tW0L us) s .errRange none

/-- R146, R131: TPGT answers the decoded image, for every image, and never reads SPEED. -/
def Obligations.TpgtDecodesTheImage : Prop :=
  (∀ (s : State) (sp : Speed) (p : Param), 0x8000 ≤ (s.readTp sp p).toNat →
    AnswersOnly (.tpgt sp p) s .ok (some (.micros ((((s.readTp sp p).toNat - 0x8000 : Nat) : Rat) / 16)))) ∧
  (∀ (s : State) (sp : Speed) (p : Param) (i : Fin 16), (s.readTp sp p).toNat = i.val →
    AnswersOnly (.tpgt sp p) s .ok (some (.micros (presetUs p sp i)))) ∧
  (∀ (s : State) (sp : Speed) (p : Param), 15 < (s.readTp sp p).toNat → (s.readTp sp p).toNat < 0x8000 →
    AnswersOnly (.tpgt sp p) s .ok (some (.micros (presetUs p sp 6)))) ∧
  (∀ sp p, fetch [.word (wordSP 0xB sp p)] = .command (.tpgt sp p)) ∧
  ∀ cw : Word, cw.toNat / 0x1000 = 0xB → cw.toNat % 0x100 ≠ 0 → fetch [.word cw] = .illegal

/-- spec/00_scope.md R10: `round` gives the nearest integer, the larger of two at a tie. -/
def Obligations.RoundIsNearestAndHalfUp : Prop :=
  ∀ x : Rat, 0 ≤ x → ∀ n : Int,
    |((roundHalfUp x : Int) : Rat) - x| ≤ |(n : Rat) - x| ∧
    (|(n : Rat) - x| = |((roundHalfUp x : Int) : Rat) - x| → n ≤ roundHalfUp x)

/-- R133: a custom time that was accepted reads back as its rounded value, at most 1/32 us away, and exactly where it is a
multiple of 1/16 us. -/
def Obligations.CustomTimeRoundTrip : Prop :=
  ∀ (s t : State) (sp : Speed) (p : Param) (us : Micros), exec (.tpsc sp p us) s = .next t → t.response = some ⟨.ok, none⟩ →
    ∃ q : Micros, AnswersOnly (.tpgt sp p) t .ok (some (.micros q)) ∧ q = (roundHalfUp (us * 16) : Rat) / 16 ∧
      |q - us| ≤ 1 / 32 ∧ ∀ k : Int, us = (k : Rat) / 16 → q = us

/-- R134: a preset index reads back as its table entry. -/
def Obligations.PresetRoundTrip : Prop :=
  ∀ (s : State) (sp : Speed) (p : Param) (i : BitVec 4), ∃ t, exec (.tpsp sp p i) s = .next t ∧
    AnswersOnly (.tpgt sp p) t .ok (some (.micros (presetUs p sp (Fin.ofNat 16 i.toNat))))

/-- spec/10_state.md R28: every 16-bit value can be held and read back unchanged; TPSP stores only 0x0000 to 0x000F, TPSC only
`0x8000 | m` with m in range; and every image decodes. -/
def Obligations.EveryImageIsHeldAndDecoded : Prop :=
  (∀ (s : State) (sp : Speed) (p : Param) (w : Word), ∃ t, exec (.tprw sp p w) s = .next t ∧
    AnswersOnly (.tprr sp p) t .ok (some (.word w)) ∧ ∃ q, AnswersOnly (.tpgt sp p) t .ok (some (.micros q))) ∧
  (∀ (s t : State) (sp : Speed) (p : Param) (i : BitVec 4), exec (.tpsp sp p i) s = .next t → (t.readTp sp p).toNat ≤ 0x000F) ∧
  ∀ (s t : State) (sp : Speed) (p : Param) (us : Micros), exec (.tpsc sp p us) s = .next t → t.response = some ⟨.ok, none⟩ →
    ∃ m : Nat, t.readTp sp p = 0x8000#16 ||| BitVec.ofNat 16 m ∧ customMinMag p sp ≤ m ∧ m ≤ customMaxMag p sp ∧ m ≤ 0x7FFF

/-- spec/10_state.md R25: sixteen independent images, that of (s, p) at the linear index 8*S + P; a command changes no image
but the one its own S and P fields address, and only TPRW, TPSP and TPSC change one. -/
def Obligations.ImagesAreIndependent : Prop :=
  [Param.tRSTL, .tRSTH, .tW0L, .tW1L, .tREC, .tMSI, .tMSP, .tMSR].map (fun p => (tpIndex .standard p).val) =
    [0, 1, 2, 3, 4, 5, 6, 7] ∧
  [Param.tRSTL, .tRSTH, .tW0L, .tW1L, .tREC, .tMSI, .tMSP, .tMSR].map (fun p => (tpIndex .overdrive p).val) =
    [8, 9, 10, 11, 12, 13, 14, 15] ∧
  (∀ (s : State) (sp : Speed) (p : Param), s.tp.toList[(tpIndex sp p).val]? = some (s.readTp sp p)) ∧
  ∀ (i : Instr) (s t : State) (sp : Speed) (p : Param), exec i s = .next t → t.readTp sp p ≠ s.readTp sp p →
    (∃ w, i = .tprw sp p w) ∨ (∃ n, i = .tpsp sp p n) ∨ ∃ us, i = .tpsc sp p us

/-! ## Derived times (spec/42_derived_time.md) -/

/-- R165, R161. -/
def Obligations.BittAnswersTheBitTime : Prop :=
  (∀ (s : State) (e : Bool) (sp t : Speed), LegalSelection e sp → t = (if e then sp else s.speed) →
    AnswersOnly (.bitt e sp) s .ok
      (some (.micros (decodeImage .tW0L t (s.readTp t .tW0L) + decodeImage .tREC t (s.readTp t .tREC))))) ∧
  (∀ e sp, LegalSelection e sp → fetch [.word (wordSRE 0xC sp false e)] = .command (.bitt e sp)) ∧
  ∀ cw : Word, cw.toNat / 0x1000 = 0xC →
    (cw &&& 0x06FF#16 ≠ 0#16 ∨ (cw.getLsbD 8 = false ∧ cw.getLsbD 11 = true)) → fetch [.word cw] = .illegal

/-- R166, R162. -/
def Obligations.RsttAnswersTheResetTime : Prop :=
  (∀ (s : State) (e : Bool) (sp t : Speed), LegalSelection e sp → t = (if e then sp else s.speed) →
    AnswersOnly (.rstt e sp) s .ok
      (some (.micros (decodeImage .tRSTL t (s.readTp t .tRSTL) + decodeImage .tRSTH t (s.readTp t .tRSTH))))) ∧
  (∀ e sp, LegalSelection e sp → fetch [.word (wordSRE 0xD sp false e)] = .command (.rstt e sp)) ∧
  ∀ cw : Word, cw.toNat / 0x1000 = 0xD →
    (cw &&& 0x06FF#16 ≠ 0#16 ∨ (cw.getLsbD 8 = false ∧ cw.getLsbD 11 = true)) → fetch [.word cw] = .illegal

/-- R167, R163: eight times what BITT with the same E and S answers in the same state. -/
def Obligations.ByttAnswersEightBitTimes : Prop :=
  (∀ (s : State) (e : Bool) (sp : Speed), LegalSelection e sp →
    ∃ q : Micros, AnswersOnly (.bitt e sp) s .ok (some (.micros q)) ∧
      AnswersOnly (.bytt e sp) s .ok (some (.micros (8 * q)))) ∧
  (∀ e sp, LegalSelection e sp → fetch [.word (wordSRE 0xE sp false e)] = .command (.bytt e sp)) ∧
  ∀ cw : Word, cw.toNat / 0x1000 = 0xE →
    (cw &&& 0x06FF#16 ≠ 0#16 ∨ (cw.getLsbD 8 = false ∧ cw.getLsbD 11 = true)) → fetch [.word cw] = .illegal

/-- R168, R164: n times what BYTT answers, plus what RSTT answers where a reset precedes the block; exact for every n. -/
def Obligations.BlktAnswersTheBlockTime : Prop :=
  (∀ (s : State) (e : Bool) (sp : Speed) (r : Bool) (n : Word), LegalSelection e sp →
    ∃ b q : Micros, AnswersOnly (.bytt e sp) s .ok (some (.micros b)) ∧ AnswersOnly (.rstt e sp) s .ok (some (.micros q)) ∧
      AnswersOnly (.blkt e sp r n) s .ok (some (.micros ((n.toNat : Rat) * b + (if r then q else 0))))) ∧
  (∀ e sp r n, LegalSelection e sp → fetch [.word (wordSRE 0xF sp r e), .word n] = .command (.blkt e sp r n)) ∧
  ∀ cw n : Word, cw.toNat / 0x1000 = 0xF →
    (cw &&& 0x04FF#16 ≠ 0#16 ∨ (cw.getLsbD 8 = false ∧ cw.getLsbD 11 = true)) → fetch [.word cw, .word n] = .illegal

/-- R169: tW1L, tMSI, tMSP and tMSR enter no derived quantity. Two states with the same SPEED and the same images of the four
other parameters get the same answer from every derived-time command; with E = 1 not even SPEED matters (R165, R166). -/
def Obligations.DerivedTimesReadFourParametersOnly : Prop :=
  ∀ (a b : State) (e : Bool) (sp : Speed) (r : Bool) (n : Word), (e = true ∨ a.speed = b.speed) →
    (∀ t p, p = .tRSTL ∨ p = .tRSTH ∨ p = .tW0L ∨ p = .tREC → a.readTp t p = b.readTp t p) →
    ∀ i, i = .bitt e sp ∨ i = .rstt e sp ∨ i = .bytt e sp ∨ i = .blkt e sp r n →
      ∃ ta tb, exec i a = .next ta ∧ exec i b = .next tb ∧ ta.response = tb.response

/-- R170: with custom images every bit time is a whole number of sixteenths of a microsecond, at most 4095.875 us. -/
def Obligations.CustomBitTimesAreSixteenths : Prop :=
  ∀ (s : State) (t : Speed), 0x8000 ≤ (s.readTp t .tW0L).toNat → 0x8000 ≤ (s.readTp t .tREC).toNat →
    ∃ k : Nat, AnswersOnly (.bitt true t) s .ok (some (.micros ((k : Rat) / 16))) ∧ (k : Rat) / 16 ≤ 4095.875

/-- spec/70_reset_and_hazards.md R206: after SPDW, a derived-time command with E = 0 answers what it answers with E = 1 at the
new speed, and the commands with E = 1 answer what they answered before. -/
def Obligations.SpeedChangeActsOnTheNextCommand : Prop :=
  ∀ (s : State) (sp x : Speed) (r : Bool) (n : Word), ∃ t, exec (.spdw sp) s = .next t ∧
    exec (.bitt false .standard) t = exec (.bitt true sp) t ∧ exec (.rstt false .standard) t = exec (.rstt true sp) t ∧
    exec (.bytt false .standard) t = exec (.bytt true sp) t ∧
    exec (.blkt false .standard r n) t = exec (.blkt true sp r n) t ∧
    ∀ i, i = .bitt true x ∨ i = .rstt true x ∨ i = .bytt true x ∨ i = .blkt true x r n →
      ∃ u v, exec i s = .next u ∧ exec i t = .next v ∧ v.response = u.response

/-- R172: the occupancy term of the source's regression case, `BLKT 4` after reset. -/
def Obligations.BlktFourAfterReset : Prop :=
  AnswersOnly (.blkt false .standard false 4#16) State.reset .ok
    (some (.micros (32 * (presetUs .tW0L .standard 6 + presetUs .tREC .standard 6))))

/-! ## The whole machine -/

/-- spec/60_exceptions.md R180: every command returns exactly one of the four codes, with the numbers of the table; ERR_RANGE is
raised by TPSC only, ERR_CRC by CRCC only, and ERR_ILLEGAL by no well-formed command (by illegal words: R78,
`IllegalWordsAreAnsweredAndConsumed`); a code other than OK carries no value. -/
def Obligations.EveryCommandAnswersOneCode : Prop :=
  (Code.ok.number = 0 ∧ Code.errIllegal.number = 1 ∧ Code.errRange.number = 2 ∧ Code.errCrc.number = 3) ∧
  ∀ (i : Instr) (s : State), ∃ t r, exec i s = .next t ∧ t.response = some r ∧
    (r.code = .errRange → ∃ sp p us, i = .tpsc sp p us) ∧ (r.code = .errCrc → ∃ w, i = .crcc w) ∧
    (i.wf = true → r.code ≠ .errIllegal) ∧ (r.code ≠ .ok → r.value = none)

/-- R184: a command answered with a code other than OK writes no state, and the next step is what it would have been without
it. -/
def Obligations.ErrorsLeaveNoTrace : Prop :=
  ∀ (s t : State) (r : Response), step s = .next t → t.response = some r → r.code ≠ .ok →
    SameRegisters s t ∧ t.host = s.host.tail ∧ step t = step (s.setHost s.host.tail)

/-- R24: SPEED is written only by SPDW and by reset. -/
def Obligations.OnlySpdwAndResetWriteSpeed : Prop :=
  ∀ s t : State, step s = .next t → t.speed ≠ s.speed →
    (∃ rest, s.host = encode (.spdw t.speed) :: rest) ∨ ∃ more rest, s.host = (.reset :: more) :: rest

/-- R26: CRC_ACC is written only by CRCI and CRCU (and by reset, R31). -/
def Obligations.OnlyCrciCrcuAndResetWriteCrcAcc : Prop :=
  ∀ s t : State, step s = .next t → t.crcAcc ≠ s.crcAcc →
    (∃ rest, s.host = encode .crci :: rest) ∨ (∃ d rest, s.host = encode (.crcu d) :: rest) ∨
      ∃ more rest, s.host = (.reset :: more) :: rest

/-- The images are written only by TPRW, TPSP and TPSC, each its own (sp, p), and by reset (spec/30_encoding.md R75;
spec/10_state.md R28, R31). -/
def Obligations.OnlySettersAndResetWriteAnImage : Prop :=
  ∀ (s t : State) (sp : Speed) (p : Param), step s = .next t → t.readTp sp p ≠ s.readTp sp p →
    (∃ w rest, s.host = encode (.tprw sp p w) :: rest) ∨ (∃ i rest, s.host = encode (.tpsp sp p i) :: rest) ∨
      (∃ us rest, s.host = encode (.tpsc sp p us) :: rest) ∨ ∃ more rest, s.host = (.reset :: more) :: rest

/-- spec/20_memory.md R60: the read commands write no state and answer the same twice; the writes named are idempotent; CRCU is
not. -/
def Obligations.ReadsAndIdempotentWrites : Prop :=
  (∀ (i : Instr) (s : State), i.wf = true →
    (i = .spdr ∨ (∃ sp p, i = .tprr sp p) ∨ (∃ sp p, i = .tpgt sp p) ∨ i = .crcr ∨ (∃ w, i = .crcc w) ∨
      (∃ e sp, i = .bitt e sp) ∨ (∃ e sp, i = .rstt e sp) ∨ (∃ e sp, i = .bytt e sp) ∨ ∃ e sp r n, i = .blkt e sp r n) →
    ∃ t, exec i s = .next t ∧ SameRegisters s t ∧ exec i t = .next t) ∧
  (∀ (i : Instr) (s : State),
    ((∃ sp p w, i = .tprw sp p w) ∨ (∃ sp p n, i = .tpsp sp p n) ∨ (∃ sp p us, i = .tpsc sp p us) ∨ (∃ sp, i = .spdw sp) ∨
      i = .crci) →
    ∃ t u, exec i s = .next t ∧ exec i t = .next u ∧ SameRegisters t u ∧ u.response = t.response) ∧
  ∃ (d : Byte) (s t u : State), exec (.crcu d) s = .next t ∧ exec (.crcu d) t = .next u ∧ u.crcAcc ≠ t.crcAcc

/-- The invariant of Safety.lean holds after reset. -/
def Obligations.ResetIsSound : Prop := State.reset.Inv

/-- Every step from a state that meets the invariant gives one that does: a code other than OK never carries a value, and every
time the block answers is a non-negative number of microseconds (R180; spec/00_scope.md R12). -/
def Obligations.StepKeepsResponsesSound : Prop :=
  ∀ s t : State, s.Inv → step s = .next t → t.Inv

/-- R28, as an invariant: after reset every image is one a validating setter stores, and every step that is no TPRW keeps it
so. -/
def Obligations.ImagesStayInRangeWithoutTprw : Prop :=
  State.reset.SetterImages ∧
  ∀ s t : State, s.SetterImages → (∀ sp p w rest, s.host ≠ encode (.tprw sp p w) :: rest) → step s = .next t →
    t.SetterImages

/-- spec/70_reset_and_hazards.md R203: the boot sequence, from any state, leaves every image it loads (each named once) as
loaded, every other image as it was, SPEED at the bus speed and the CRC seeded. -/
def Obligations.BootLoadsTheBlock : Prop :=
  ∀ (images : List (Speed × Param × Word)) (bus : Speed) (s : State),
    (images.map fun x => (x.1, x.2.1)).Nodup →
    ∃ t, RunsTo (images.length + 2) (s.present (bootProgram images bus)) t ∧ t.speed = bus ∧ t.crcAcc = 0x0000#16 ∧
      (∀ sp p w, (sp, p, w) ∈ images → t.readTp sp p = w) ∧
      (∀ sp p, (∀ w, (sp, p, w) ∉ images) → t.readTp sp p = s.readTp sp p)

/-- With nothing presented the block keeps its whole state (R195); that it gives no response then is the model's choice
(notes/assumptions/2.md). -/
def Obligations.IdleBlockKeepsItsState : Prop :=
  ∀ s : State, s.host = [] → ∃ t, step s = .next t ∧ SameRegisters s t ∧ t.host = []

/-- R81, TPCOPY: the line stands for it; its first command answers the raw source image and writes nothing; and running it
leaves the target image equal to what the source image was, and SPEED, CRC_ACC and every other image as they were, with the
response of the TPRW. -/
def Obligations.TpcopyCopiesTheRawImage : Prop :=
  ∀ (s : State) (s1 s2 : Speed) (p1 p2 : Param),
    assemblePseudo ("TPCOPY " ++ speedText s1 ++ ", " ++ paramText p1 ++ " -> " ++ speedText s2 ++ ", " ++ paramText p2) =
      some (.tpcopy s1 p1 s2 p2) ∧
    AnswersOnly (tpcopyRead s1 p1) s .ok (some (.word (s.readTp s1 p1))) ∧
    ∃ t, runPseudo (.tpcopy s1 p1 s2 p2) s = some t ∧ t.readTp s2 p2 = s.readTp s1 p1 ∧
      (∀ sp p, ¬(sp = s2 ∧ p = p2) → t.readTp sp p = s.readTp sp p) ∧
      t.speed = s.speed ∧ t.crcAcc = s.crcAcc ∧ t.response = some ⟨.ok, none⟩
end

