-- ==== Sys2Proof/Laws/PerInstr.lean ====
section
/-! SUPPORT. Statements made per instruction, one lemma per constructor. -/

/-- OperandShape: the operand an instruction carries is of the kind its command word's OP field calls for
(spec/30_encoding.md R72), whatever its fields. -/
def Sys2Proof.Laws.OperandShape.Statement (i : Sys2Proof.Instr) : Prop :=
  Sys2Proof.takeOperand (Sys2Proof.operandKind i.word) i.operand.items = .ok (i.operand, [])

namespace Sys2Proof.Laws.OperandShape

/-- The OP field of CRCU does not see the data byte. -/
theorem operandKind_crcu (d : Byte) : operandKind (Instr.crcu d).word = .none := by
  have h : ∀ d : Byte, fieldOp (0x2000#16 ||| d.setWidth 16) = 2 := by decide +kernel
  simp [operandKind, Instr.word, h d]

theorem operandKind_tpsp (s : Speed) (p : Param) (i : BitVec 4) : operandKind (Instr.tpsp s p i).word = .none := by
  have h : ∀ i : BitVec 4, fieldOp (Instr.tpsp s p i).word = 9 := by cases s <;> cases p <;> decide +kernel
  simp [operandKind, h i]

theorem ofNone {i : Instr} (hk : operandKind i.word = .none) (hx : i.operand = .none) : Statement i := by
  simp [Statement, hk, hx, Operand.items, takeOperand]

theorem ofWord {i : Instr} {w : Word} (hk : operandKind i.word = .word) (hx : i.operand = .word w) : Statement i := by
  simp [Statement, hk, hx, Operand.items, takeOperand]

theorem ofUs {i : Instr} {q : Micros} (hk : operandKind i.word = .us) (hx : i.operand = .us q) : Statement i := by
  simp [Statement, hk, hx, Operand.items, takeOperand]

theorem crci : Statement .crci := ofNone (by decide) rfl
theorem crcu (d : Byte) : Statement (.crcu d) := ofNone (operandKind_crcu d) rfl
theorem crcr : Statement .crcr := ofNone (by decide) rfl
theorem crcc (w : Word) : Statement (.crcc w) := ofWord (by simp only [Instr.word]; decide) rfl
theorem spdw (s : Speed) : Statement (.spdw s) := ofNone (by cases s <;> decide) rfl
theorem spdr : Statement .spdr := ofNone (by decide) rfl
theorem tprr (s : Speed) (p : Param) : Statement (.tprr s p) := ofNone (by cases s <;> cases p <;> decide) rfl
theorem tprw (s : Speed) (p : Param) (w : Word) : Statement (.tprw s p w) :=
  ofWord (by simp only [Instr.word]; cases s <;> cases p <;> decide) rfl
theorem tpsp (s : Speed) (p : Param) (i : BitVec 4) : Statement (.tpsp s p i) := ofNone (operandKind_tpsp s p i) rfl
theorem tpsc (s : Speed) (p : Param) (us : Micros) : Statement (.tpsc s p us) :=
  ofUs (by simp only [Instr.word]; cases s <;> cases p <;> decide) rfl
theorem tpgt (s : Speed) (p : Param) : Statement (.tpgt s p) := ofNone (by cases s <;> cases p <;> decide) rfl
theorem bitt (e : Bool) (s : Speed) : Statement (.bitt e s) := ofNone (by cases e <;> cases s <;> decide) rfl
theorem rstt (e : Bool) (s : Speed) : Statement (.rstt e s) := ofNone (by cases e <;> cases s <;> decide) rfl
theorem bytt (e : Bool) (s : Speed) : Statement (.bytt e s) := ofNone (by cases e <;> cases s <;> decide) rfl
theorem blkt (e : Bool) (s : Speed) (r : Bool) (n : Word) : Statement (.blkt e s r n) :=
  ofWord (by simp only [Instr.word]; cases e <;> cases s <;> cases r <;> decide) rfl

end Sys2Proof.Laws.OperandShape
end

