-- ==== Sys2Proof/Laws/Decode.lean ====
section
/-! SUPPORT. What the decoder's parts answer, said once. -/

namespace Sys2Proof

@[simp] theorem bare_none (i : Instr) : bare .none i = some i := rfl
@[simp] theorem bare_word (i : Instr) (w : Word) : bare (.word w) i = none := rfl
@[simp] theorem bare_us (i : Instr) (q : Micros) : bare (.us q) i = none := rfl
@[simp] theorem withWord_word (w : Word) (k : Word → Instr) : withWord (.word w) k = some (k w) := rfl
@[simp] theorem withWord_none (k : Word → Instr) : withWord .none k = none := rfl
@[simp] theorem withWord_us (q : Micros) (k : Word → Instr) : withWord (.us q) k = none := rfl
@[simp] theorem withUs_us (q : Micros) (k : Micros → Instr) : withUs (.us q) k = some (k q) := rfl
@[simp] theorem withUs_none (k : Micros → Instr) : withUs .none k = none := rfl
@[simp] theorem withUs_word (w : Word) (k : Micros → Instr) : withUs (.word w) k = none := rfl

theorem bare_eq_some {x : Operand} {i j : Instr} : bare x i = some j ↔ x = .none ∧ i = j := by
  cases x <;> simp

theorem withWord_eq_some {x : Operand} {k : Word → Instr} {j : Instr} :
    withWord x k = some j ↔ ∃ w, x = .word w ∧ k w = j := by
  cases x <;> simp

theorem withUs_eq_some {x : Operand} {k : Micros → Instr} {j : Instr} :
    withUs x k = some j ↔ ∃ q, x = .us q ∧ k q = j := by
  cases x <;> simp

/-- An operand of the kind the word calls for is taken whole, and what stands behind it is left. -/
theorem takeOperand_of_kind {k : OperandKind} {x : Operand} (h : x.kind = k) (more : Turn) :
    takeOperand k (x.items ++ more) = .ok (x, more) := by
  subst h
  cases x <;> rfl

/-- INVERSION: whatever is taken is an operand of the kind asked for, and the items are it and the rest. -/
theorem takeOperand_eq_ok {k : OperandKind} {items more : Turn} {x : Operand} (h : takeOperand k items = .ok (x, more)) :
    x.kind = k ∧ items = x.items ++ more := by
  unfold takeOperand at h
  split at h
  · cases h; exact ⟨rfl, rfl⟩
  · split at h <;> cases h
    exact ⟨rfl, rfl⟩
  · split at h <;> cases h
    exact ⟨rfl, rfl⟩

/-- A command word with its operand and nothing more is a command or an illegal word. -/
theorem fetch_whole {cw : Word} {x : Operand} (h : x.kind = operandKind cw) :
    fetch (.word cw :: x.items) = match decode cw x with | some i => .command i | none => .illegal := by
  have ht := takeOperand_of_kind h []
  rw [List.append_nil] at ht
  cases hd : decode cw x <;> simp [fetch, ht, hd]

/-- INVERSION: a turn that decodes to a command is a command word and its operand. -/
theorem fetch_eq_command {t : Turn} {i : Instr} (h : fetch t = .command i) :
    ∃ cw x, t = .word cw :: x.items ∧ x.kind = operandKind cw ∧ decode cw x = some i := by
  unfold fetch at h
  split at h
  · cases h
  · cases h
  · cases h
  · rename_i cw items
    split at h
    · cases h
    · cases h
    · cases h
    · rename_i x ht
      obtain ⟨hk, hi⟩ := takeOperand_eq_ok ht
      split at h
      · rename_i j hj
        cases h
        exact ⟨cw, x, by simpa using hi, hk, hj⟩
      · cases h

/-- INVERSION: a turn that resets begins with the reset input. -/
theorem fetch_eq_reset {t more : Turn} (h : fetch t = .reset more) : t = .reset :: more := by
  unfold fetch at h
  split at h
  · cases h
  · cases h; rfl
  · cases h
  · split at h
    · cases h
    · cases h
    · cases h
    · split at h <;> cases h

/-- The operand of an instruction is of the kind its command word calls for (R72). -/
theorem operand_kind (i : Instr) : i.operand.kind = operandKind i.word := by
  have h : takeOperand (operandKind i.word) i.operand.items = .ok (i.operand, []) := by
    cases i with
    | crci => exact Laws.OperandShape.crci
    | crcu d => exact Laws.OperandShape.crcu d
    | crcr => exact Laws.OperandShape.crcr
    | crcc w => exact Laws.OperandShape.crcc w
    | spdw s => exact Laws.OperandShape.spdw s
    | spdr => exact Laws.OperandShape.spdr
    | tprr s p => exact Laws.OperandShape.tprr s p
    | tprw s p w => exact Laws.OperandShape.tprw s p w
    | tpsp s p i => exact Laws.OperandShape.tpsp s p i
    | tpsc s p us => exact Laws.OperandShape.tpsc s p us
    | tpgt s p => exact Laws.OperandShape.tpgt s p
    | bitt e s => exact Laws.OperandShape.bitt e s
    | rstt e s => exact Laws.OperandShape.rstt e s
    | bytt e s => exact Laws.OperandShape.bytt e s
    | blkt e s r n => exact Laws.OperandShape.blkt e s r n
  exact (takeOperand_eq_ok h).1

end Sys2Proof
end

