-- ==== Sys2Proof/Laws/State.lean ====
section
/-! SUPPORT. One lemma per field per update of the state, so that no proof unfolds a record update, and the laws of reading
and writing TP. -/

namespace Sys2Proof.Machine

@[simp] theorem setSpeed_speed (st : State) (x : Speed) : (st.setSpeed x).speed = x := rfl
@[simp] theorem setSpeed_tp (st : State) (x : Speed) : (st.setSpeed x).tp = st.tp := rfl
@[simp] theorem setSpeed_crcAcc (st : State) (x : Speed) : (st.setSpeed x).crcAcc = st.crcAcc := rfl
@[simp] theorem setSpeed_host (st : State) (x : Speed) : (st.setSpeed x).host = st.host := rfl
@[simp] theorem setSpeed_response (st : State) (x : Speed) : (st.setSpeed x).response = st.response := rfl

@[simp] theorem setCrc_speed (st : State) (x : Word) : (st.setCrc x).speed = st.speed := rfl
@[simp] theorem setCrc_tp (st : State) (x : Word) : (st.setCrc x).tp = st.tp := rfl
@[simp] theorem setCrc_crcAcc (st : State) (x : Word) : (st.setCrc x).crcAcc = x := rfl
@[simp] theorem setCrc_host (st : State) (x : Word) : (st.setCrc x).host = st.host := rfl
@[simp] theorem setCrc_response (st : State) (x : Word) : (st.setCrc x).response = st.response := rfl

@[simp] theorem setHost_speed (st : State) (x : List Turn) : (st.setHost x).speed = st.speed := rfl
@[simp] theorem setHost_tp (st : State) (x : List Turn) : (st.setHost x).tp = st.tp := rfl
@[simp] theorem setHost_crcAcc (st : State) (x : List Turn) : (st.setHost x).crcAcc = st.crcAcc := rfl
@[simp] theorem setHost_host (st : State) (x : List Turn) : (st.setHost x).host = x := rfl
@[simp] theorem setHost_response (st : State) (x : List Turn) : (st.setHost x).response = st.response := rfl

@[simp] theorem writeTp_speed (st : State) (s : Speed) (p : Param) (w : Word) : (st.writeTp s p w).speed = st.speed := rfl
@[simp] theorem writeTp_tp (st : State) (s : Speed) (p : Param) (w : Word) : (st.writeTp s p w).tp = st.tp.set (tpIndex s p) w := rfl
@[simp] theorem writeTp_crcAcc (st : State) (s : Speed) (p : Param) (w : Word) : (st.writeTp s p w).crcAcc = st.crcAcc := rfl
@[simp] theorem writeTp_host (st : State) (s : Speed) (p : Param) (w : Word) : (st.writeTp s p w).host = st.host := rfl
@[simp] theorem writeTp_response (st : State) (s : Speed) (p : Param) (w : Word) : (st.writeTp s p w).response = st.response := rfl

@[simp] theorem quiet_speed (st : State) : st.quiet.speed = st.speed := rfl
@[simp] theorem quiet_tp (st : State) : st.quiet.tp = st.tp := rfl
@[simp] theorem quiet_crcAcc (st : State) : st.quiet.crcAcc = st.crcAcc := rfl
@[simp] theorem quiet_host (st : State) : st.quiet.host = st.host := rfl
@[simp] theorem quiet_response (st : State) : st.quiet.response = none := rfl

@[simp] theorem respond_speed (st : State) (c : Code) (v : Option Value) : (st.respond c v).speed = st.speed := rfl
@[simp] theorem respond_tp (st : State) (c : Code) (v : Option Value) : (st.respond c v).tp = st.tp := rfl
@[simp] theorem respond_crcAcc (st : State) (c : Code) (v : Option Value) : (st.respond c v).crcAcc = st.crcAcc := rfl
@[simp] theorem respond_host (st : State) (c : Code) (v : Option Value) : (st.respond c v).host = st.host := rfl
@[simp] theorem respond_response (st : State) (c : Code) (v : Option Value) : (st.respond c v).response = some ⟨c, v⟩ := rfl

@[simp] theorem done_speed (st : State) : st.done.speed = st.speed := rfl
@[simp] theorem done_tp (st : State) : st.done.tp = st.tp := rfl
@[simp] theorem done_crcAcc (st : State) : st.done.crcAcc = st.crcAcc := rfl
@[simp] theorem done_host (st : State) : st.done.host = st.host := rfl
@[simp] theorem done_response (st : State) : st.done.response = some ⟨.ok, none⟩ := rfl

@[simp] theorem answer_speed (st : State) (v : Value) : (st.answer v).speed = st.speed := rfl
@[simp] theorem answer_tp (st : State) (v : Value) : (st.answer v).tp = st.tp := rfl
@[simp] theorem answer_crcAcc (st : State) (v : Value) : (st.answer v).crcAcc = st.crcAcc := rfl
@[simp] theorem answer_host (st : State) (v : Value) : (st.answer v).host = st.host := rfl
@[simp] theorem answer_response (st : State) (v : Value) : (st.answer v).response = some ⟨.ok, some v⟩ := rfl

@[simp] theorem raise_speed (st : State) (c : Code) : (st.raise c).speed = st.speed := rfl
@[simp] theorem raise_tp (st : State) (c : Code) : (st.raise c).tp = st.tp := rfl
@[simp] theorem raise_crcAcc (st : State) (c : Code) : (st.raise c).crcAcc = st.crcAcc := rfl
@[simp] theorem raise_host (st : State) (c : Code) : (st.raise c).host = st.host := rfl
@[simp] theorem raise_response (st : State) (c : Code) : (st.raise c).response = some ⟨c, none⟩ := rfl

@[simp] theorem resetInput_speed (st : State) : st.resetInput.speed = .standard := rfl
@[simp] theorem resetInput_tp (st : State) : st.resetInput.tp = Vector.replicate 16 0x0006#16 := rfl
@[simp] theorem resetInput_crcAcc (st : State) : st.resetInput.crcAcc = 0#16 := rfl
@[simp] theorem resetInput_host (st : State) : st.resetInput.host = st.host := rfl
@[simp] theorem resetInput_response (st : State) : st.resetInput.response = none := rfl

@[simp] theorem reset_speed : State.reset.speed = .standard := rfl
@[simp] theorem reset_tp : State.reset.tp = Vector.replicate 16 0x0006#16 := rfl
@[simp] theorem reset_crcAcc : State.reset.crcAcc = 0#16 := rfl
@[simp] theorem reset_host : State.reset.host = [] := rfl
@[simp] theorem reset_response : State.reset.response = none := rfl

/-! ## Reading and writing TP (spec/10_state.md R25) -/

/-- Two pairs (s, p) have the same index only if they are the same pair: 16 independent images. -/
theorem tpIndex_inj {s s' : Speed} {p p' : Param} : tpIndex s p = tpIndex s' p' ↔ s = s' ∧ p = p' := by
  revert s s' p p'
  intro s s' p p'
  cases s <;> cases s' <;> cases p <;> cases p' <;> decide

/-- Every index names an image: the pair (S, P) reaches all sixteen. -/
theorem tpIndex_surj (k : Fin 16) : ∃ s p, tpIndex s p = k := by
  have h : ∀ k : Fin 16, tpIndex (Speed.ofBit (decide (8 ≤ k.val))) (Param.ofCode (k.val % 8)) = k := by decide
  exact ⟨_, _, h k⟩

@[simp] theorem readTp_writeTp_same (st : State) (s : Speed) (p : Param) (w : Word) :
    (st.writeTp s p w).readTp s p = w := by
  simp [State.readTp, State.writeTp, Vector.get_eq_getElem]

theorem readTp_writeTp_other (st : State) {s s' : Speed} {p p' : Param} (w : Word) (h : ¬(s' = s ∧ p' = p)) :
    (st.writeTp s p w).readTp s' p' = st.readTp s' p' := by
  have hne : (tpIndex s p).val ≠ (tpIndex s' p').val := by
    intro heq
    have := tpIndex_inj.mp (Fin.ext heq)
    exact h ⟨this.1.symm, this.2.symm⟩
  simp [State.readTp, State.writeTp, Vector.get_eq_getElem, Vector.getElem_set_ne, hne]

theorem readTp_writeTp (st : State) (s s' : Speed) (p p' : Param) (w : Word) :
    (st.writeTp s p w).readTp s' p' = if s' = s ∧ p' = p then w else st.readTp s' p' := by
  split
  · rename_i h
    obtain ⟨rfl, rfl⟩ := h
    simp
  · rename_i h
    exact readTp_writeTp_other st w h

@[simp] theorem readTp_reset (s : Speed) (p : Param) : State.reset.readTp s p = 0x0006#16 := by
  cases s <;> cases p <;> rfl

/-- Two states with the same images at every (s, p) have the same TP: the pairs reach all of it. -/
theorem tp_ext {a b : State} (h : ∀ s p, a.readTp s p = b.readTp s p) : a.tp = b.tp := by
  apply Vector.ext
  intro k hk
  obtain ⟨s, p, hsp⟩ := tpIndex_surj ⟨k, hk⟩
  have := h s p
  simpa [State.readTp, Vector.get_eq_getElem, hsp] using this

@[simp] theorem setSpeed_readTp (st : State) (x : Speed) (s : Speed) (p : Param) : (st.setSpeed x).readTp s p = st.readTp s p := rfl
@[simp] theorem setCrc_readTp (st : State) (x : Word) (s : Speed) (p : Param) : (st.setCrc x).readTp s p = st.readTp s p := rfl
@[simp] theorem setHost_readTp (st : State) (x : List Turn) (s : Speed) (p : Param) : (st.setHost x).readTp s p = st.readTp s p := rfl
@[simp] theorem quiet_readTp (st : State) (s : Speed) (p : Param) : st.quiet.readTp s p = st.readTp s p := rfl
@[simp] theorem respond_readTp (st : State) (c : Code) (v : Option Value) (s : Speed) (p : Param) : (st.respond c v).readTp s p = st.readTp s p := rfl
@[simp] theorem done_readTp (st : State) (s : Speed) (p : Param) : st.done.readTp s p = st.readTp s p := rfl
@[simp] theorem answer_readTp (st : State) (v : Value) (s : Speed) (p : Param) : (st.answer v).readTp s p = st.readTp s p := rfl
@[simp] theorem raise_readTp (st : State) (c : Code) (s : Speed) (p : Param) : (st.raise c).readTp s p = st.readTp s p := rfl
@[simp] theorem resetInput_readTp (st : State) (s : Speed) (p : Param) : st.resetInput.readTp s p = 0x0006#16 :=
  readTp_reset s p

end Sys2Proof.Machine
end

