-- ==== Sys2Proof/Laws/Operands.lean ====
section
/-! SUPPORT. What the operations on values say once: the fields of an image, rounding, the open parameters' bounds, encoding
and decoding an image, and that a value does not see what its definition does not read. -/

namespace Sys2Proof.Machine

/-! ## Image fields -/

theorem imageF_lt (w : Word) : imageF w < 0x8000 := (w.extractLsb' 0 15).isLt

theorem imageF_eq_mod (w : Word) : imageF w = w.toNat % 0x8000 := by
  simp [imageF, BitVec.extractLsb'_toNat]

theorem imageC_iff (w : Word) : imageC w = true ↔ 0x8000 ≤ w.toNat := by
  have h := w.isLt
  simp only [imageC, BitVec.getLsbD, Nat.testBit_eq_decide_div_mod_eq, decide_eq_true_eq]
  omega

theorem customImage_toNat {m : Nat} (h : m ≤ 0x7FFF) : (customImage m).toNat = 0x8000 + m := by
  have hd : (0x8000 : Nat) ||| m = 0x8000 + m := by
    have := Nat.two_pow_add_eq_or_of_lt (i := 15) (b := m) (by omega) 1
    simpa using this.symm
  simp only [customImage, BitVec.toNat_or, BitVec.toNat_ofNat]
  rw [Nat.mod_eq_of_lt (a := m) (by omega)]
  simpa using hd

theorem imageC_customImage {m : Nat} (h : m ≤ 0x7FFF) : imageC (customImage m) = true := by
  rw [imageC_iff, customImage_toNat h]; omega

theorem imageF_customImage {m : Nat} (h : m ≤ 0x7FFF) : imageF (customImage m) = m := by
  rw [imageF_eq_mod, customImage_toNat h]; omega

theorem presetImage_toNat (i : BitVec 4) : (presetImage i).toNat = i.toNat := by
  have := i.isLt
  simp [presetImage]; omega

theorem imageC_presetImage (i : BitVec 4) : imageC (presetImage i) = false := by
  have := i.isLt
  rw [← Bool.not_eq_true, imageC_iff, presetImage_toNat]; omega

theorem imageF_presetImage (i : BitVec 4) : imageF (presetImage i) = i.toNat := by
  have := i.isLt
  rw [imageF_eq_mod, presetImage_toNat]; omega

/-- The reset image is the preset index 6. -/
theorem resetImage_eq : (0x0006#16 : Word) = presetImage 6#4 := rfl

@[simp] theorem imageC_resetImage : imageC 0x0006#16 = false := by
  rw [resetImage_eq, imageC_presetImage]

@[simp] theorem imageF_resetImage : imageF 0x0006#16 = 6 := by
  rw [resetImage_eq, imageF_presetImage]; rfl

/-! ## Rounding (spec/00_scope.md R10) -/

theorem roundHalfUp_le (x : Rat) : (roundHalfUp x : Rat) ≤ x + 1 / 2 := Int.floor_le _

theorem lt_roundHalfUp (x : Rat) : x - 1 / 2 < (roundHalfUp x : Rat) := by
  have := Int.lt_floor_add_one (x + 1 / 2)
  unfold roundHalfUp
  linarith

theorem roundHalfUp_nonneg {x : Rat} (h : 0 ≤ x) : 0 ≤ roundHalfUp x := by
  unfold roundHalfUp
  exact Int.floor_nonneg.mpr (by linarith)

@[simp] theorem roundHalfUp_intCast (n : Int) : roundHalfUp (n : Rat) = n := by
  unfold roundHalfUp
  rw [Int.floor_intCast_add]
  norm_num

@[simp] theorem roundHalfUp_natCast (n : Nat) : roundHalfUp (n : Rat) = n := by
  simpa using roundHalfUp_intCast (n : Int)

/-! ## The open parameters (spec/00_scope.md R7) -/

theorem presetUs_nonneg (p : Param) (s : Speed) (i : Fin 16) : 0 ≤ presetUs p s i := (Config.presetUs p s i).2

theorem customMinMag_le_customMaxMag (p : Param) (s : Speed) : customMinMag p s ≤ customMaxMag p s := Nat.min_le_right _ _

theorem customMaxMag_le (p : Param) (s : Speed) : customMaxMag p s ≤ 0x7FFF := by
  have h := (Config.openMaxMag p s).isLt
  unfold customMaxMag
  split
  · decide
  · omega

@[simp] theorem customMaxMag_tW0L_overdrive : customMaxMag .tW0L .overdrive = 504 := rfl

/-! ## Encoding (spec/41_timing_params.md R130) -/

/-- All that `encodeCustom` can answer. -/
theorem encodeCustom_eq_some {p : Param} {s : Speed} {us : Micros} {w : Word} :
    encodeCustom p s us = some w ↔
      0 ≤ us ∧ customMinMag p s ≤ (roundHalfUp (us * 16)).toNat ∧ (roundHalfUp (us * 16)).toNat ≤ customMaxMag p s ∧
        w = customImage (roundHalfUp (us * 16)).toNat := by
  have hm := customMaxMag_le p s
  unfold encodeCustom
  by_cases h0 : us < 0
  · simp [h0]
  · simp only [h0, if_false]
    split_ifs with h1 h2
    · simp; intros; omega
    · simp; intros; omega
    · push Not at h2 h0
      simp only [Option.some.injEq]
      exact ⟨fun h => ⟨h0, h2.1, h2.2, h.symm⟩, fun h => h.2.2.2.symm⟩

theorem encodeCustom_negative {p : Param} {s : Speed} {us : Micros} (h : us < 0) : encodeCustom p s us = none := by
  simp [encodeCustom, h]

/-- A multiple of 1/16 us inside the range is encoded as its own magnitude. -/
theorem encodeCustom_exact {p : Param} {s : Speed} {m : Nat} (h1 : customMinMag p s ≤ m) (h2 : m ≤ customMaxMag p s) :
    encodeCustom p s ((m : Rat) / 16) = some (customImage m) := by
  have e : roundHalfUp ((m : Rat) / 16 * 16) = (m : Int) := by
    rw [div_mul_cancel₀ _ (by norm_num : (16 : Rat) ≠ 0)]; exact roundHalfUp_natCast m
  rw [encodeCustom_eq_some]
  exact ⟨by positivity, by simpa [e] using h1, by simpa [e] using h2, by rw [e]; rfl⟩

/-! ## Decoding (spec/41_timing_params.md R131) -/

theorem decodeImage_custom {p : Param} {s : Speed} {w : Word} (h : imageC w = true) :
    decodeImage p s w = (imageF w : Rat) / 16 := by
  simp [decodeImage, h]

theorem decodeImage_preset {p : Param} {s : Speed} {w : Word} (h : imageC w = false) (hf : imageF w ≤ 15) :
    decodeImage p s w = presetUs p s (Fin.ofNat 16 (imageF w)) := by
  simp [decodeImage, h, hf]

theorem decodeImage_outOfTable {p : Param} {s : Speed} {w : Word} (h : imageC w = false) (hf : 15 < imageF w) :
    decodeImage p s w = presetUs p s 6 := by
  simp [decodeImage, h, Nat.not_le.mpr hf]

theorem decodeImage_nonneg (p : Param) (s : Speed) (w : Word) : 0 ≤ decodeImage p s w := by
  unfold decodeImage
  split_ifs
  · positivity
  · exact presetUs_nonneg _ _ _
  · exact presetUs_nonneg _ _ _

@[simp] theorem decodeImage_customImage {p : Param} {s : Speed} {m : Nat} (h : m ≤ 0x7FFF) :
    decodeImage p s (customImage m) = (m : Rat) / 16 := by
  rw [decodeImage_custom (imageC_customImage h), imageF_customImage h]

@[simp] theorem decodeImage_presetImage {p : Param} {s : Speed} {i : BitVec 4} :
    decodeImage p s (presetImage i) = presetUs p s (Fin.ofNat 16 i.toNat) := by
  have := i.isLt
  rw [decodeImage_preset (imageC_presetImage i) (by rw [imageF_presetImage]; omega), imageF_presetImage]

@[simp] theorem decodeImage_resetImage (p : Param) (s : Speed) : decodeImage p s 0x0006#16 = presetUs p s 6 := by
  rw [resetImage_eq, decodeImage_presetImage]; rfl

/-! ## Values and derived times -/

theorem value_nonneg (st : State) (p : Param) (s : Speed) : 0 ≤ st.value p s := decodeImage_nonneg _ _ _

theorem bitTime_nonneg (st : State) (t : Speed) : 0 ≤ st.bitTime t := add_nonneg (value_nonneg _ _ _) (value_nonneg _ _ _)

theorem resetTime_nonneg (st : State) (t : Speed) : 0 ≤ st.resetTime t := add_nonneg (value_nonneg _ _ _) (value_nonneg _ _ _)

theorem byteTime_nonneg (st : State) (t : Speed) : 0 ≤ st.byteTime t := mul_nonneg (by norm_num) (bitTime_nonneg _ _)

theorem blockTime_nonneg (st : State) (t : Speed) (n : Word) (r : Bool) : 0 ≤ st.blockTime t n r := by
  unfold State.blockTime
  apply add_nonneg
  · exact mul_nonneg (by positivity) (byteTime_nonneg _ _)
  · split_ifs
    · exact resetTime_nonneg _ _
    · exact le_refl _

/-- A value reads one image and nothing else of the state. -/
theorem value_congr {a b : State} {p : Param} {s : Speed} (h : a.readTp s p = b.readTp s p) : a.value p s = b.value p s := by
  simp [State.value, h]

@[simp] theorem sel_false (st : State) (s : Speed) : st.sel false s = st.speed := rfl

@[simp] theorem sel_true (st : State) (s : Speed) : st.sel true s = s := rfl

/-! ## The CRC -/

/-- The byte step is its eight bit steps, bit 0 first. -/
theorem crcStep_eq (acc : Word) (b : Byte) :
    crcStep acc b =
      crcBit (crcBit (crcBit (crcBit (crcBit (crcBit (crcBit (crcBit acc (b.getLsbD 0)) (b.getLsbD 1)) (b.getLsbD 2))
        (b.getLsbD 3)) (b.getLsbD 4)) (b.getLsbD 5)) (b.getLsbD 6)) (b.getLsbD 7) := rfl

@[simp] theorem finalCrc_finalCrc (a : Word) : finalCrc (finalCrc a) = a := by
  simp [finalCrc]

@[simp] theorem crcCode_finalCrc (acc : Word) : crcCode acc (finalCrc acc) = .ok := by
  simp [crcCode, crcMatches]

theorem crcCode_eq_ok {acc w : Word} : crcCode acc w = .ok ↔ w = finalCrc acc := by
  simp [crcCode, crcMatches]

theorem crcCode_eq_errCrc {acc w : Word} : crcCode acc w = .errCrc ↔ w ≠ finalCrc acc := by
  simp [crcCode, crcMatches]

end Sys2Proof.Machine
end

