-- ==== Sys2Proof/Laws/Step.lean ====
section
/-! SUPPORT. What one step can do, said once: the step on each kind of turn, and what the shared operations of the meanings
answer. -/

namespace Sys2Proof.Machine

/-! ## The step by the host's next turn -/

theorem step_idle {s : State} (h : s.host = []) : step s = .next s.quiet := by
  simp [step, h]

theorem step_turn {s : State} {t : Turn} {rest : List Turn} (h : s.host = t :: rest) :
    step s = stepTurn (fetch t) (s.setHost rest) := by
  simp [step, h]

theorem step_command {s : State} {t : Turn} {rest : List Turn} {i : Instr} (h : s.host = t :: rest)
    (hf : fetch t = .command i) : step s = exec i (s.setHost rest) := by
  simp [step_turn h, hf, stepTurn]

theorem step_illegal {s : State} {t : Turn} {rest : List Turn} (h : s.host = t :: rest) (hf : fetch t = .illegal) :
    step s = .next ((s.setHost rest).raise .errIllegal) := by
  simp [step_turn h, hf, stepTurn]

theorem step_rejected {s : State} {t : Turn} {rest : List Turn} {r : Reject} (h : s.host = t :: rest)
    (hf : fetch t = .rejected r) : step s = .refused (refusalOf r) := by
  simp [step_turn h, hf, stepTurn]

theorem step_reset {s : State} {more : Turn} {rest : List Turn} (h : s.host = (.reset :: more) :: rest) :
    step s = .next (s.setHost (turnsAfterReset more rest)).resetInput := by
  simp [step_turn h, fetch, stepTurn, State.setHost]

/-- INVERSION: a step that goes on did one of five things. -/
theorem step_next_cases {s t : State} (h : step s = .next t) :
    (s.host = [] ∧ t = s.quiet) ∨
    (∃ turn rest, s.host = turn :: rest ∧
      ((fetch turn = .idle ∧ t = (s.setHost rest).quiet) ∨
       (∃ more, fetch turn = .reset more ∧ t = (s.setHost (turnsAfterReset more rest)).resetInput) ∨
       (∃ i, fetch turn = .command i ∧ exec i (s.setHost rest) = .next t) ∨
       (fetch turn = .illegal ∧ t = (s.setHost rest).raise .errIllegal))) := by
  cases hh : s.host with
  | nil =>
    rw [step_idle hh] at h
    exact .inl ⟨rfl, (Host.Outcome.next.inj h).symm⟩
  | cons turn rest =>
    rw [step_turn hh] at h
    refine .inr ⟨turn, rest, rfl, ?_⟩
    cases hf : fetch turn with
    | idle => simp [hf, stepTurn] at h; exact .inl ⟨rfl, h.symm⟩
    | reset more => simp [hf, stepTurn] at h; exact .inr (.inl ⟨more, rfl, by rw [← h]; rfl⟩)
    | command i => simp [hf, stepTurn] at h; exact .inr (.inr (.inl ⟨i, rfl, h⟩))
    | illegal => simp [hf, stepTurn] at h; exact .inr (.inr (.inr ⟨rfl, h.symm⟩))
    | rejected r => simp [hf, stepTurn] at h

/-! ## What the shared operations of the meanings answer -/

theorem storeCustom_cases (s : Speed) (p : Param) (r : Option Word) (st : State) :
    (∃ w, r = some w ∧ storeCustom s p r st = (st.writeTp s p w).done) ∨
    (r = none ∧ storeCustom s p r st = st.raise .errRange) := by
  cases r with
  | none => exact .inr ⟨rfl, rfl⟩
  | some w => exact .inl ⟨w, rfl, rfl⟩

theorem answerAtSpeed_cases (e : Bool) (s : Speed) (f : Speed → Micros) (st : State) :
    (legalSel e s = true ∧ answerAtSpeed e s f st = st.answer (.micros (f (st.sel e s)))) ∨
    (legalSel e s = false ∧ answerAtSpeed e s f st = st.raise .errIllegal) := by
  cases h : legalSel e s
  · exact .inr ⟨rfl, by simp [answerAtSpeed, h]⟩
  · exact .inl ⟨rfl, by simp [answerAtSpeed, h]⟩

/-- The decoder's test and the well-formedness check are the same (R78 (c)). -/
theorem legalSel_eq_selWf (e : Bool) (s : Speed) : legalSel e s = selWf e s := by
  cases e <;> cases s <;> rfl

theorem answerAtSpeed_legal {e : Bool} {s : Speed} {f : Speed → Micros} {st : State} (h : legalSel e s = true) :
    answerAtSpeed e s f st = st.answer (.micros (f (st.sel e s))) := by
  simp [answerAtSpeed, h]

/-! ## What a command can do -/

/-- What a command writes, when it writes. -/
def Writes (i : Instr) (s t : State) : Prop :=
  (i = .crci ∧ t = (s.setCrc 0x0000#16).done) ∨
  (∃ d, i = .crcu d ∧ t = (s.setCrc (crcStep s.crcAcc d)).done) ∨
  (∃ x, i = .spdw x ∧ t = (s.setSpeed x).done) ∨
  ∃ sp p w, (i = .tprw sp p w ∨ (∃ n, i = .tpsp sp p n ∧ w = presetImage n) ∨
    ∃ us, i = .tpsc sp p us ∧ encodeCustom p sp us = some w) ∧ t = (s.writeTp sp p w).done

/-- INVERSION: a command either only answers, or it writes one thing and answers OK. -/
theorem exec_cases {i : Instr} {s t : State} (h : exec i s = .next t) :
    (∃ c v, t = s.respond c v) ∨ Writes i s t := by
  have key : ∀ e sp f, ∃ c v, answerAtSpeed e sp f s = s.respond c v := by
    intro e sp f
    rcases answerAtSpeed_cases e sp f s with ⟨_, e1⟩ | ⟨_, e1⟩ <;> rw [e1] <;> exact ⟨_, _, rfl⟩
  cases i <;> cases h
  case crci.refl => exact .inr (.inl ⟨rfl, rfl⟩)
  case crcu.refl d => exact .inr (.inr (.inl ⟨d, rfl, rfl⟩))
  case crcr.refl => exact .inl ⟨_, _, rfl⟩
  case crcc.refl => exact .inl ⟨_, _, rfl⟩
  case spdw.refl x => exact .inr (.inr (.inr (.inl ⟨x, rfl, rfl⟩)))
  case spdr.refl => exact .inl ⟨_, _, rfl⟩
  case tprr.refl => exact .inl ⟨_, _, rfl⟩
  case tprw.refl sp p w => exact .inr (.inr (.inr (.inr ⟨sp, p, w, .inl rfl, rfl⟩)))
  case tpsp.refl sp p n => exact .inr (.inr (.inr (.inr ⟨sp, p, _, .inr (.inl ⟨n, rfl, rfl⟩), rfl⟩)))
  case tpsc.refl sp p us =>
    rcases storeCustom_cases sp p (encodeCustom p sp us) s with ⟨w, hw, e⟩ | ⟨_, e⟩ <;> rw [e]
    · exact .inr (.inr (.inr (.inr ⟨sp, p, w, .inr (.inr ⟨us, rfl, hw⟩), rfl⟩)))
    · exact .inl ⟨_, _, rfl⟩
  case tpgt.refl => exact .inl ⟨_, _, rfl⟩
  case bitt.refl => exact .inl (key _ _ _)
  case rstt.refl => exact .inl (key _ _ _)
  case bytt.refl => exact .inl (key _ _ _)
  case blkt.refl => exact .inl (key _ _ _)

/-- A command does not touch the host's turns. -/
theorem exec_host {i : Instr} {s t : State} (h : exec i s = .next t) : t.host = s.host := by
  rcases exec_cases h with ⟨c, v, rfl⟩ | ⟨-, rfl⟩ | ⟨d, -, rfl⟩ | ⟨x, -, rfl⟩ | ⟨sp, p, w, -, rfl⟩ <;> rfl

/-- A command does not see the host's turns. -/
theorem exec_setHost {i : Instr} {s t : State} {ts : List Turn} (h : exec i s = .next t) :
    exec i (s.setHost ts) = .next (t.setHost ts) := by
  cases i <;> cases h <;> try rfl
  · simp only [exec, execTpsc, storeCustom]; split <;> rfl
  all_goals simp only [exec, execBitt, execRstt, execBytt, execBlkt, answerAtSpeed]; split <;> rfl

/-! ## Runs -/

/-- The first step of a run over presented commands is the first command, once its turn is known to decode to it. -/
theorem runsTo_present_cons {i : Instr} {is : List Instr} {s u t : State} {k : Nat} (hf : fetch (encode i) = .command i)
    (hu : exec i s = .next u) : RunsTo (k + 1) (s.present (i :: is)) t ↔ RunsTo k (u.present is) t := by
  have h1 : step (s.present (i :: is)) = exec i (s.present is) :=
    step_command (t := encode i) (rest := is.map encode) rfl hf
  have h2 : exec i (s.present is) = .next (u.present is) := exec_setHost hu
  simp [RunsTo, h1, h2]

theorem runsTo_succ {k : Nat} {s t : State} : RunsTo (k + 1) s t ↔ ∃ u, step s = .next u ∧ RunsTo k u t := Iff.rfl

theorem runsTo_add {j k : Nat} {s t : State} : RunsTo (j + k) s t ↔ ∃ u, RunsTo j s u ∧ RunsTo k u t := by
  induction j generalizing s with
  | zero => simp [RunsTo]
  | succ j ih =>
    rw [Nat.succ_add]
    simp only [RunsTo, ih]
    constructor
    · rintro ⟨u, hu, v, hv, hk⟩; exact ⟨v, ⟨u, hu, hv⟩, hk⟩
    · rintro ⟨v, ⟨u, hu, hv⟩, hk⟩; exact ⟨u, hu, v, hv, hk⟩

end Sys2Proof.Machine
end

