-- ==== Sys2Proof/Laws/Assembly.lean ====
section
/-! SUPPORT. What the assembler's parts answer, said once: tokens, numbers, decimal numbers, comma lists; and what running an
expansion is. -/

namespace Sys2Proof.Machine

/-! ## Tokens -/

/-- Characters that end no token. -/
def InToken (cs : List Char) : Prop := ∀ c ∈ cs, c ≠ ' ' ∧ c ≠ ','

@[simp] theorem lexChars_nil (cur : List Char) : lexChars [] cur = flushToken cur := rfl

@[simp] theorem lexChars_space (rest cur : List Char) : lexChars (' ' :: rest) cur = flushToken cur ++ lexChars rest [] := rfl

@[simp] theorem lexChars_comma (rest cur : List Char) :
    lexChars (',' :: rest) cur = flushToken cur ++ "," :: lexChars rest [] := rfl

theorem lexChars_char {c : Char} (hs : c ≠ ' ') (hc : c ≠ ',') (rest cur : List Char) :
    lexChars (c :: rest) cur = lexChars rest (cur ++ [c]) :=
  lexChars.eq_4 _ _ _ (by simpa using hs) (by simpa using hc)

theorem lexChars_inToken {cs : List Char} (h : InToken cs) (rest cur : List Char) :
    lexChars (cs ++ rest) cur = lexChars rest (cur ++ cs) := by
  induction cs generalizing cur with
  | nil => simp
  | cons c cs ih =>
    obtain ⟨hs, hc⟩ := h c (by simp)
    rw [List.cons_append, lexChars_char hs hc, ih (fun d hd => h d (List.mem_cons_of_mem _ hd))]
    simp

/-- A token read to its end is the string that was written. -/
theorem flushToken_toList {tok : String} (h : tok.toList ≠ []) : flushToken tok.toList = [tok] := by
  cases hc : tok.toList with
  | nil => exact absurd hc h
  | cons c cs => rw [flushToken, ← hc, String.ofList_toList]

/-- A token with a space, a comma or nothing behind it. -/
theorem lexChars_token_space {tok : String} (h : InToken tok.toList) (hn : tok.toList ≠ []) (rest : List Char) :
    lexChars (tok.toList ++ ' ' :: rest) [] = tok :: lexChars rest [] := by
  rw [lexChars_inToken h, List.nil_append, lexChars_space, flushToken_toList hn, List.singleton_append]

theorem lexChars_token_comma {tok : String} (h : InToken tok.toList) (hn : tok.toList ≠ []) (rest : List Char) :
    lexChars (tok.toList ++ ',' :: rest) [] = tok :: "," :: lexChars rest [] := by
  rw [lexChars_inToken h, List.nil_append, lexChars_comma, flushToken_toList hn, List.singleton_append]

theorem lexChars_token_end {tok : String} (h : InToken tok.toList) (hn : tok.toList ≠ []) :
    lexChars tok.toList [] = [tok] := by
  have := lexChars_inToken h [] []
  rw [List.append_nil] at this
  rw [this, List.nil_append, lexChars_nil, flushToken_toList hn]

theorem inToken_of_all {tok : String} (h : (tok.toList.all fun c => c ≠ ' ' ∧ c ≠ ',') = true) : InToken tok.toList := by
  intro c hc
  simpa using List.all_eq_true.1 h c hc

/-- The tokens of a line whose first token has a space, a comma and a space, or nothing behind it. -/
theorem tokens_space {tok : String} (h : InToken tok.toList) (hn : tok.toList ≠ []) (rest : String) :
    tokens (tok ++ " " ++ rest) = tok :: tokens rest := by
  simp only [tokens, String.toList_append]
  rw [show " ".toList = [' '] from rfl, List.append_assoc]
  exact lexChars_token_space h hn _

theorem tokens_comma {tok : String} (h : InToken tok.toList) (hn : tok.toList ≠ []) (rest : String) :
    tokens (tok ++ ", " ++ rest) = tok :: "," :: tokens rest := by
  simp only [tokens, String.toList_append]
  rw [show ", ".toList = [',', ' '] from rfl, List.append_assoc]
  simp [lexChars_token_comma h hn, flushToken]

theorem tokens_end {tok : String} (h : InToken tok.toList) (hn : tok.toList ≠ []) : tokens tok = [tok] :=
  lexChars_token_end h hn

/-! ## Numbers -/

/-- The digits' values, folded. -/
theorem digitsFrom_of_digits {base : Nat} {cs : List Char} {ds : List Nat}
    (h : List.Forall₂ (fun c d => digitOf base c = some d) cs ds) (acc : Nat) :
    digitsFrom base acc cs = some (ds.foldl (fun a d => base * a + d) acc) := by
  induction h generalizing acc with
  | nil => rfl
  | cons hc _ ih => simp [digitsFrom, hc, ih]

theorem digitsFrom_append (base acc : Nat) (xs ys : List Char) :
    digitsFrom base acc (xs ++ ys) = (digitsFrom base acc xs).bind fun v => digitsFrom base v ys := by
  induction xs generalizing acc with
  | nil => rfl
  | cons c xs ih => cases h : digitOf base c <;> simp [digitsFrom, h, ih]

/-- A number that fits its field is read whole. -/
theorem bitsOf_of_numberOf {n v : Nat} {tok : String} (h : numberOf tok = some v) (hv : v < 2 ^ n) :
    bitsOf n tok = some (BitVec.ofNat n v) := by
  simp [bitsOf, h, hv]

theorem splitPoint_no_point {cs : List Char} (h : '.' ∉ cs) (before : List Char) :
    splitPoint cs before = (before ++ cs, none) := by
  induction cs generalizing before with
  | nil => simp [splitPoint]
  | cons c cs ih =>
    have hc : c ≠ '.' := fun e => h (by simp [e])
    rw [splitPoint.eq_3 _ _ _ (by simpa using hc), ih (fun hm => h (List.mem_cons_of_mem _ hm))]
    simp

theorem splitPoint_point {cs : List Char} (h : '.' ∉ cs) (before rest : List Char) :
    splitPoint (cs ++ '.' :: rest) before = (before ++ cs, some rest) := by
  induction cs generalizing before with
  | nil => simp [splitPoint]
  | cons c cs ih =>
    have hc : c ≠ '.' := fun e => h (by simp [e])
    rw [List.cons_append, splitPoint.eq_3 _ _ _ (by simpa using hc), ih (fun hm => h (List.mem_cons_of_mem _ hm))]
    simp

/-! ## Running an expansion -/

/-- The first command of an expansion, once its turn is known to decode to it. -/
theorem runExpansion_cons {x : Expanded} {rest : List Expanded} {i : Instr} {s t : State} (hx : instrOf s.response x = some i)
    (hf : fetch (encode i) = .command i) (ht : exec i s = .next t) :
    runExpansion (x :: rest) s = runExpansion rest (t.setHost []) := by
  have h : step (s.present [i]) = .next (t.setHost []) := by
    rw [step_command (t := encode i) (rest := []) rfl hf]
    exact (exec_setHost ht : exec i (s.setHost []) = _)
  simp [runExpansion, hx, h]

/-- Where every command is known beforehand, running the expansion is the run of its commands. -/
theorem runExpansion_commands {is : List Instr} {s t : State} (hh : s.host = [])
    (hf : ∀ i ∈ is, fetch (encode i) = .command i) :
    runExpansion (is.map .command) s = some t ↔ RunsTo is.length (s.present is) t := by
  induction is generalizing s with
  | nil =>
    have : s.present [] = s := by cases s; simp_all [State.present, State.setHost]
    simp [runExpansion, RunsTo, this, eq_comm]
  | cons i is ih =>
    obtain ⟨u, hu⟩ : ∃ u, exec i s = .next u := by cases i <;> exact ⟨_, rfl⟩
    have hi := hf i (by simp)
    rw [List.map_cons, runExpansion_cons rfl hi hu, ih rfl (fun j hj => hf j (List.mem_cons_of_mem _ hj))]
    exact (runsTo_present_cons hi hu).symm

end Sys2Proof.Machine
end

