-- ==== Sys2Proof/Tests/Slice0.lean ====
section
/-! SUPPORT. The model's own tests. Every expected value is from the spec: the encodings of spec/30_encoding.md R74 and R80, the
worked examples of the command rules, and the vectors of spec/95_test_vectors.md, named in the test's comment. The last
part shows, for every statement with hypotheses, a concrete state and operands that meet them. -/

namespace Sys2Proof.Tests

open Sys2Proof Sys2Proof.Machine

/-- The response a command gives. -/
def reply (o : Host.Outcome State Fault Refusal) : Option Response :=
  match o with
  | .next t => t.response
  | .fault _ => none
  | .refused _ => none

/-- The state a step leads to; the state before it where it has no meaning. -/
def after (s : State) (o : Host.Outcome State Fault Refusal) : State :=
  match o with
  | .next t => t
  | .fault _ => s
  | .refused _ => s

/-- The refusal of a step. -/
def refusal (o : Host.Outcome State Fault Refusal) : Option Refusal :=
  match o with
  | .next _ => none
  | .fault _ => none
  | .refused r => some r

/-- Reset state with one image written. -/
def withImage (s : Speed) (p : Param) (w : Word) : State := State.reset.writeTp s p w

/-- V-DT-5: TP[STD]: tW0L 0x83C0, tREC 0x8050. -/
def dt5 : State := (withImage .standard .tW0L 0x83C0#16).writeTp .standard .tREC 0x8050#16

/-- V-DT-7: as V-DT-5, tRSTL 0x9E00, tRSTH 0x9E00. -/
def dt7 : State := (dt5.writeTp .standard .tRSTL 0x9E00#16).writeTp .standard .tRSTH 0x9E00#16

/-- V-DT-18: as V-DT-5 with TP[OD]: tW0L 0x8010, tREC 0x8020. -/
def dt18 : State := (dt5.writeTp .overdrive .tW0L 0x8010#16).writeTp .overdrive .tREC 0x8020#16

/-! ## WellFormed: each check refuses an ill-formed term -/

theorem test_wf_bitt_refuses_e0_s1 : (Instr.bitt false .overdrive).wf = false := by decide
theorem test_wf_rstt_refuses_e0_s1 : (Instr.rstt false .overdrive).wf = false := by decide
theorem test_wf_bytt_refuses_e0_s1 : (Instr.bytt false .overdrive).wf = false := by decide
theorem test_wf_blkt_refuses_e0_s1 : (Instr.blkt false .overdrive true 4#16).wf = false := by decide

/-! ## Decoding: a word of every command, written out from R74; and illegal words of section 5 of the vectors -/

theorem test_decode_crci : fetch [.word 0b0001_0000_0000_0000#16] = .command .crci := by decide
theorem test_decode_crcu : fetch [.word 0b0010_0000_0110_0110#16] = .command (.crcu 0x66#8) := by decide
theorem test_decode_crcr : fetch [.word 0b0011_0000_0000_0000#16] = .command .crcr := by decide
theorem test_decode_crcc : fetch [.word 0b0100_0000_0000_0000#16, .word 0xDE7C#16] = .command (.crcc 0xDE7C#16) := by decide
theorem test_decode_spdw : fetch [.word 0b0101_1000_0000_0000#16] = .command (.spdw .overdrive) := by decide
theorem test_decode_spdr : fetch [.word 0b0110_0000_0000_0000#16] = .command .spdr := by decide
theorem test_decode_tprr : fetch [.word 0b0111_0010_0000_0000#16] = .command (.tprr .standard .tW0L) := by decide
theorem test_decode_tprw : fetch [.word 0b1000_0000_0000_0000#16, .word 0x0010#16] = .command (.tprw .standard .tRSTL 0x0010#16) := by
  decide
theorem test_decode_tpsp : fetch [.word 0b1001_1100_0000_0011#16] = .command (.tpsp .overdrive .tREC 3#4) := by decide
theorem test_decode_tpsc : fetch [.word 0b1010_1010_0000_0000#16, .us 3] = .command (.tpsc .overdrive .tW0L 3) := by decide
theorem test_decode_tpgt : fetch [.word 0b1011_0100_0000_0000#16] = .command (.tpgt .standard .tREC) := by decide
theorem test_decode_bitt : fetch [.word 0b1100_1001_0000_0000#16] = .command (.bitt true .overdrive) := by decide
theorem test_decode_rstt : fetch [.word 0b1101_1001_0000_0000#16] = .command (.rstt true .overdrive) := by decide
theorem test_decode_bytt : fetch [.word 0b1110_0001_0000_0000#16] = .command (.bytt true .standard) := by decide
theorem test_decode_blkt :
    fetch [.word 0b1111_1011_0000_0000#16, .word 4#16] = .command (.blkt true .overdrive true 4#16) := by decide

/-- V-ERR-1 to 4, 6, 8, 10, 12, 14, 18, 20, 22 to 24: words without an operand. -/
theorem test_decode_illegal :
    [0x0000#16, 0x0FFF#16, 0x1001#16, 0x2166#16, 0x3800#16, 0x5001#16, 0x6800#16, 0x7F01#16, 0x9C13#16, 0xBF80#16, 0xC800#16,
      0xC200#16, 0xC400#16, 0xD001#16].map (fun w => fetch [.word w]) = List.replicate 14 .illegal := by decide

/-- V-ERR-7, 15, 16, 27, 28: the operand is consumed. -/
theorem test_decode_illegal_with_operand :
    fetch [.word 0x4001#16, .word 0x7CDE#16] = .illegal ∧ fetch [.word 0xA201#16, .us 3] = .illegal ∧
      fetch [.word 0xA201#16, .us (-1)] = .illegal ∧ fetch [.word 0xF400#16, .word 4#16] = .illegal ∧
      fetch [.word 0xFA00#16, .word 4#16] = .illegal := by decide

/-- V-ERR-5, 19, 21, 25, 26: legal neighbours. -/
theorem test_decode_legal_neighbours :
    fetch [.word 0x20FF#16] = .command (.crcu 0xFF#8) ∧ fetch [.word 0xC100#16] = .command (.bitt true .standard) ∧
      fetch [.word 0xE900#16] = .command (.bytt true .overdrive) ∧
      fetch [.word 0xF200#16, .word 4#16] = .command (.blkt false .standard true 4#16) := by decide

/-- R71, R208, R200: turns without a meaning. -/
theorem test_fetch_rejects :
    fetch [.word 0x4000#16] = .rejected .operandMissing ∧ fetch [.word 0xA000#16, .word 1#16] = .rejected .operandMissing ∧
      fetch [.us 1] = .rejected .notACommandWord ∧
      fetch [.word 0x1000#16, .word 0x1000#16] = .rejected .presentedBeforeResponse ∧
      fetch [.word 0x8000#16, .reset] = .rejected .resetDuringCommand := by decide

/-- R135: 0x81F8 is the byte pair [0xF8, 0x81]; R55: bytes [0xDE, 0x7C] are the word 0x7CDE. -/
theorem test_bytes : ser16 0x81F8#16 = [0xF8#8, 0x81#8] ∧ deser16 0xDE#8 0x7C#8 = 0x7CDE#16 ∧
    fetchBytes [0x00#8, 0x40#8, 0xDE#8, 0x7C#8] = .command (.crcc 0x7CDE#16) ∧ fetchBytes [0x00#8] = .rejected .operandMissing := by
  decide

/-- The table's words as the host numbers them. -/
theorem test_table_word : decodeTableWord 16 0x2066 = some (.crcu 0x66#8) ∧
    decodeTableWord 32 0x7CDE4000 = some (.crcc 0x7CDE#16) ∧
    decodeTableWord 16 0xF200 = some (.blkt false .standard true 0#16) ∧ decodeTableWord 16 0xC800 = none := by decide

/-! ## Assembly (R80, R81) -/

/-- Lines of the programs P1 to P5 and their command words. -/
theorem test_assemble_words :
    (assemble "CRCU 0x66").map Instr.word = some 0x2066#16 ∧ (assemble "SPDW OD").map Instr.word = some 0x5800#16 ∧
      (assemble "TPSP OD, tREC, 3").map Instr.word = some 0x9C03#16 ∧ (assemble "BITT STD").map Instr.word = some 0xC100#16 ∧
      (assemble "BITT").map Instr.word = some 0xC000#16 ∧ (assemble "BLKT 4, RST").map encode = some [.word 0xF200#16, .word 4#16] ∧
      (assemble "BLKT OD, 2, RST").map encode = some [.word 0xFB00#16, .word 2#16] ∧ assemble "TPSP OD, tREC, 16" = none := by
  decide

/-- The US operand of P5 line 10 is exact; that a point needs digits on both sides is the model's choice (assumption 15). -/
theorem test_assemble_us : assemble "TPSC OD, tW0L, 31.53" = some (.tpsc .overdrive .tW0L (3153 / 100)) ∧
    assemble "TPSC OD, tW0L, 3" = some (.tpsc .overdrive .tW0L 3) ∧ microsOf ".5" = none ∧ microsOf "31." = none := by
  decide +kernel

/-- The lines of R81's table, and the empty byte sequence of V-CRC-1. -/
theorem test_assemble_pseudo :
    assemblePseudo "CRC16 0x66, 0x01" = some (.crc16 [0x66#8, 0x01#8]) ∧ assemblePseudo "CRC16" = some (.crc16 []) ∧
      assemblePseudo "CRCV 0x02, 0xA0E0" = some (.crcv [0x02#8] 0xA0E0#16) ∧
      assemblePseudo "TPCOPY STD, tW0L -> OD, tREC" = some (.tpcopy .standard .tW0L .overdrive .tREC) ∧
      expansion (.crcv [0x02#8] 0xA0E0#16) = [.command .crci, .command (.crcu 0x02#8), .command (.crcc 0xA0E0#16)] := by decide

/-- Lines off R81's table: a comma missing, a comma too many, a word in the place of a byte. -/
theorem test_assemble_pseudo_off_table :
    assemblePseudo "CRCV 0x02 0xA0E0" = none ∧ assemblePseudo "CRC16 0x66," = none ∧ assemblePseudo "CRC16 0x66,, 0x01" = none ∧
      assemblePseudo "CRC16 ," = none ∧ assemblePseudo "CRCV" = none ∧ assemblePseudo "CRCV 0x102, 0xA0E0" = none ∧
      assemblePseudo "TPCOPY STD, tW0L, OD, tREC" = none := by decide

/-- V-TP-49: TPCOPY STD, tW0L -> OD, tW0L with the image of 60 us. -/
theorem test_tpcopy :
    (runPseudo (.tpcopy .standard .tW0L .overdrive .tW0L) dt5).map (fun t => (t.readTp .overdrive .tW0L, t.response)) =
      some (0x83C0#16, some ⟨.ok, none⟩) := by decide

/-! ## CRC-16 (R100 to R105) -/

/-- V-CRC-30 to 36. -/
theorem test_crcStep_vectors :
    crcStep 0x0000#16 0x66#8 = 0x2A80#16 ∧ crcStep 0x2A80#16 0x01#8 = 0x60EA#16 ∧ crcStep 0x60EA#16 0x11#8 = 0x8321#16 ∧
      crcStep 0xFFFF#16 0x00#8 = 0x40BF#16 ∧ crcStep 0xFFFF#16 0xFF#8 = 0x00FF#16 ∧ crcStep 0x1234#16 0xAB#8 = 0x6852#16 := by
  decide

/-- V-CRC-9, V-CRC-10 (the published check value of the CRC-16 named Dallas/Maxim), V-CRC-12, V-CRC-16. -/
theorem test_crc16_vectors :
    crc16 [0x66#8, 0x01#8, 0x11#8] = 0x7CDE#16 ∧
      crc16 [0x31#8, 0x32#8, 0x33#8, 0x34#8, 0x35#8, 0x36#8, 0x37#8, 0x38#8, 0x39#8] = 0x44C2#16 ∧
      crc16 [0x02#8, 0xAA#8, 0x55#8] = 0xA0E0#16 ∧ crc16 [0x55#8, 0xAA#8] = 0xD040#16 ∧ crc16 [] = 0xFFFF#16 := by
  decide +kernel

/-- R100's worked example. -/
theorem test_crci : (after State.reset (exec .crci (State.reset.setCrc 0x8321#16))).crcAcc = 0x0000#16 := by decide

/-- R102's worked example. -/
theorem test_crcu : (after State.reset (exec (.crcu 0x66#8) State.reset)).crcAcc = 0x2A80#16 := by decide

/-- R103's worked example. -/
theorem test_crcr : reply (exec .crcr (State.reset.setCrc 0x8321#16)) = some ⟨.ok, some (.word 0x7CDE#16)⟩ := by decide

/-- R104's worked examples. -/
theorem test_crcc_match : reply (exec (.crcc 0x7CDE#16) (State.reset.setCrc 0x8321#16)) = some ⟨.ok, none⟩ := by decide
theorem test_crcc_swapped : reply (exec (.crcc 0xDE7C#16) (State.reset.setCrc 0x8321#16)) = some ⟨.errCrc, none⟩ := by decide

/-! ## Speed and timing parameters (R140 to R146) -/

/-- V-TP-45. -/
theorem test_spdw : (after State.reset (exec (.spdw .overdrive) State.reset)).speed = .overdrive := by decide
theorem test_spdr : reply (exec .spdr (State.reset.setSpeed .overdrive)) = some ⟨.ok, some (.speed .overdrive)⟩ := by decide

/-- R142's worked example, and V-TP-48: the two speeds are separate entries. -/
theorem test_tprr : reply (exec (.tprr .standard .tW0L) State.reset) = some ⟨.ok, some (.word 0x0006#16)⟩ := by decide
theorem test_tprr_other_speed :
    reply (exec (.tprr .overdrive .tW1L) (withImage .standard .tW1L 0x83C0#16)) = some ⟨.ok, some (.word 0x0006#16)⟩ := by decide

/-- V-TP-47. -/
theorem test_tprw :
    (after State.reset (exec (.tprw .standard .tRSTL 0x1234#16) State.reset)).readTp .standard .tRSTL = 0x1234#16 := by decide

/-- V-TP-43: TPSP replaces a custom image whole; R144's worked example. -/
theorem test_tpsp_replaces_custom :
    (after State.reset (exec (.tpsp .standard .tREC 0#4) (withImage .standard .tREC 0x8050#16))).readTp .standard .tREC = 0x0000#16 := by
  decide
theorem test_tpsp :
    (after State.reset (exec (.tpsp .overdrive .tREC 3#4) State.reset)).readTp .overdrive .tREC = 0x0003#16 := by decide

/-- The half steps of V-TP-1, 3, 6 and the neighbours of V-TP-2, 8, 9, 10. -/
theorem test_round_ties : roundHalfUp (1.03125 * 16) = 17 ∧ roundHalfUp (0.03125 * 16) = 1 ∧ roundHalfUp (0.09375 * 16) = 2 ∧
    roundHalfUp (1.03 * 16) = 16 ∧ roundHalfUp (31.53 * 16) = 504 ∧ roundHalfUp (31.53125 * 16) = 505 ∧
    roundHalfUp (31.55 * 16) = 505 := by
  decide +kernel

/-- V-TP-7: 31.5 us is the source's maximum, whatever the open minimum is. -/
theorem test_encode_31_5 : encodeCustom .tW0L .overdrive 31.5 = some 0x81F8#16 := by
  have h := encodeCustom_exact (p := .tW0L) (s := .overdrive) (m := 504) (customMinMag_le_customMaxMag _ _) (le_refl _)
  norm_num at h ⊢
  exact h.trans rfl

/-- R145's worked example. -/
theorem test_tpsc :
    (after State.reset (exec (.tpsc .overdrive .tW0L 31.5) State.reset)).readTp .overdrive .tW0L = 0x81F8#16 := by
  have h : exec (.tpsc .overdrive .tW0L 31.5) State.reset = .next (State.reset.writeTp .overdrive .tW0L 0x81F8#16).done := by
    show Host.Outcome.next _ = _
    rw [test_encode_31_5]
    rfl
  rw [h]
  exact readTp_writeTp_same _ _ _ _

/-- V-TP-14, V-ERR-17: a negative time. -/
theorem test_tpsc_negative :
    reply (exec (.tpsc .overdrive .tW0L (-1)) State.reset) = some ⟨.errRange, none⟩ := by
  have h : exec (.tpsc .overdrive .tW0L (-1)) State.reset = .next (State.reset.raise .errRange) := by
    show Host.Outcome.next _ = _
    rw [encodeCustom_negative (by norm_num)]
    rfl
  rw [h]
  rfl

/-- V-TP-26 to 30: custom images. -/
theorem test_decodeImage_custom :
    decodeImage .tREC .standard 0x8050#16 = 5 ∧ decodeImage .tREC .standard 0x8000#16 = 0 ∧
      decodeImage .tREC .standard 0xFFFF#16 = 2047.9375 ∧ decodeImage .tW0L .overdrive 0x81F9#16 = 31.5625 := by
  decide +kernel

/-- V-TP-22 to 25: preset images, and the default of an index that is out of the table. -/
theorem test_decodeImage_preset :
    decodeImage .tMSR .overdrive 0x000F#16 = presetUs .tMSR .overdrive 15 ∧
      decodeImage .tMSR .overdrive 0x0010#16 = presetUs .tMSR .overdrive 6 ∧
      decodeImage .tMSR .overdrive 0x0016#16 = presetUs .tMSR .overdrive 6 ∧
      decodeImage .tMSR .overdrive 0x7FFF#16 = presetUs .tMSR .overdrive 6 := by
  refine ⟨?_, ?_, ?_, ?_⟩ <;> simp only [decodeImage] <;> rfl

/-- R146's worked example. -/
theorem test_tpgt :
    reply (exec (.tpgt .standard .tREC) (withImage .standard .tREC 0x8050#16)) = some ⟨.ok, some (.micros 5)⟩ := by
  decide +kernel

/-! ## Derived times (R165 to R168) -/

/-- V-DT-5; V-DT-20: E = 0 follows SPEED. -/
theorem test_bitt : reply (exec (.bitt false .standard) dt5) = some ⟨.ok, some (.micros 65)⟩ := by decide +kernel
theorem test_bitt_follows_speed :
    reply (exec (.bitt false .standard) (dt18.setSpeed .overdrive)) = some ⟨.ok, some (.micros 3)⟩ := by decide +kernel

/-- V-DT-7; R166's worked example: the explicit speed, whatever SPEED holds. -/
theorem test_rstt : reply (exec (.rstt false .standard) dt7) = some ⟨.ok, some (.micros 960)⟩ := by decide +kernel
theorem test_rstt_explicit :
    reply (exec (.rstt true .overdrive) ((withImage .overdrive .tRSTL 0x8460#16).writeTp .overdrive .tRSTH 0x8300#16)) =
      some ⟨.ok, some (.micros 118)⟩ := by decide +kernel

/-- V-DT-6; program P4 line 15: BYTT STD with SPEED Overdrive. -/
theorem test_bytt : reply (exec (.bytt false .standard) dt5) = some ⟨.ok, some (.micros 520)⟩ := by decide +kernel
theorem test_bytt_explicit :
    reply (exec (.bytt true .standard) (dt18.setSpeed .overdrive)) = some ⟨.ok, some (.micros 520)⟩ := by decide +kernel

/-- V-DT-9 and V-DT-13. -/
theorem test_blkt : reply (exec (.blkt false .standard true 4#16) dt7) = some ⟨.ok, some (.micros 3040)⟩ := by decide +kernel
theorem test_blkt_largest :
    reply (exec (.blkt false .standard true 0xFFFF#16) dt7) = some ⟨.ok, some (.micros 34079160)⟩ := by decide +kernel

/-! ## Step -/

/-- P6 line 2: an illegal word shifts nothing. -/
theorem test_step_illegal :
    step (State.reset.setHost [[.word 0x2166#16]]) = .next (State.reset.raise .errIllegal) := rfl

/-- R200: reset sets SPEED and CRC_ACC whatever they held. -/
theorem test_step_reset :
    step (((State.reset.setCrc 0x1234#16).setSpeed .overdrive).setHost [[.reset]]) = .next State.reset := rfl

/-- R71: a command word without its operand. -/
theorem test_step_refused : refusal (step (State.reset.setHost [[.word 0x4000#16]])) = some .operandMissing := by decide

/-- The host's word is run by the very next step. -/
theorem test_withFetchWord :
    (after State.reset (step (State.reset.withFetchWord 16 0x2066))).crcAcc = 0x2A80#16 := by decide

/-! ## Witnesses: what meets the hypotheses of each statement -/

theorem witness_DecodeOfEncode : (Instr.blkt true .overdrive true 0xFFFF#16).wf = true := by decide

theorem witness_EncodeOfDecode : fetch [.word 0xF000#16, .word 0xFFFF#16] = .command (.blkt false .standard false 0xFFFF#16) := by
  decide

theorem witness_IllegalWords_illegal : ∃ s : State, (Operand.word 4#16).kind = operandKind 0xFA00#16 ∧
    s.host = (.word 0xFA00#16 :: (Operand.word 4#16).items) :: [] ∧ IllegalWord 0xFA00#16 :=
  ⟨State.reset.setHost [[.word 0xFA00#16, .word 4#16]], by decide, rfl, .inr (.inr (by decide))⟩

theorem witness_IllegalWords_legal : ∃ s : State, Operand.none.kind = operandKind 0x9FFF#16 ∧ Operand.none.kind = operandKind 0x9F0F#16 ∧
    s.host = (.word 0x9F0F#16 :: Operand.none.items) :: [] ∧ ¬ IllegalWord 0x9F0F#16 :=
  ⟨State.reset.setHost [[.word 0x9F0F#16]], by decide, by decide, rfl, by
    rintro (h | h | h)
    · exact absurd h (by decide)
    · exact h (by decide)
    · exact absurd h (by decide)⟩

theorem witness_ImagesAreSerialised : ser16 0x81F8#16 = [0xF8#8, 0x81#8] := by decide

theorem witness_ByteStream : (Instr.tprw .standard .tMSR 0x0010#16).wf = true ∧
    bytesOfTurn (encode (.tprw .standard .tMSR 0x0010#16)) = some [0x00#8, 0x87#8, 0x10#8, 0x00#8] := by decide

/-- The largest number of each field, in decimal and in hex, and 0. -/
theorem witness_Assembled_number : (IsNumber "255" 255 ∧ IsNumber "0xFF" 255) ∧ (IsNumber "0" 0 ∧ IsNumber "0x0" 0) ∧
    (IsNumber "65535" 65535 ∧ IsNumber "0xFFFF" 65535) ∧ (IsNumber "15" 15 ∧ IsNumber "0xF" 15) := by
  refine ⟨⟨.inl ⟨by decide, [2, 5, 5], ?_, rfl⟩, .inr ⟨['F', 'F'], rfl, by decide, [15, 15], ?_, rfl⟩⟩,
    ⟨.inl ⟨by decide, [0], ?_, rfl⟩, .inr ⟨['0'], rfl, by decide, [0], ?_, rfl⟩⟩,
    ⟨.inl ⟨by decide, [6, 5, 5, 3, 5], ?_, rfl⟩, .inr ⟨['F', 'F', 'F', 'F'], rfl, by decide, [15, 15, 15, 15], ?_, rfl⟩⟩,
    ⟨.inl ⟨by decide, [1, 5], ?_, rfl⟩, .inr ⟨['F'], rfl, by decide, [15], ?_, rfl⟩⟩⟩ <;>
    repeat' first | exact .nil | refine .cons ⟨by decide, by decide⟩ ?_

/-- An exact decimal with a point (P5 line 10), and one without. -/
theorem witness_Assembled_decimal : IsDecimal "31.53" 31.53 ∧ IsDecimal "3" 3 := by
  refine ⟨.inr ⟨['3', '1'], ['5', '3'], 31, 53, rfl, ⟨by decide, [3, 1], ?_, rfl⟩, ⟨by decide, [5, 3], ?_, rfl⟩, by norm_num⟩,
    .inl ⟨3, ⟨by decide, [3], ?_, rfl⟩, by norm_num⟩⟩ <;>
    repeat' first | exact .nil | refine .cons ⟨by decide, by decide⟩ ?_

theorem witness_Assembled : (("RSTT", 0xD) : String × Nat) ∈ [("BITT", 0xC), ("RSTT", 0xD), ("BYTT", 0xE)] ∧
    ((", RST", true) : String × Bool) ∈ [("", false), (", RST", true)] ∧
    assemble "BLKT STD, 65535, RST" = some (.blkt true .standard true 0xFFFF#16) := by decide

theorem witness_StepRuns : ∃ s : State, (Instr.spdw .overdrive).wf = true ∧ s.host = encode (.spdw .overdrive) :: [[.reset]] :=
  ⟨State.reset.setHost [encode (.spdw .overdrive), [.reset]], by decide, rfl⟩

theorem witness_WithoutOperand : ∃ s : State, operandKind 0xA000#16 ≠ .none ∧ s.host = [.word 0xA000#16] :: [] :=
  ⟨State.reset.setHost [[.word 0xA000#16]], by decide, rfl⟩

theorem witness_SecondOutstanding : ∃ s : State, (Operand.word 1#16).kind = operandKind 0x4001#16 ∧
    s.host = (.word 0x4001#16 :: (Operand.word 1#16).items ++ .word 0x1000#16 :: []) :: [] :=
  ⟨State.reset.setHost [[.word 0x4001#16, .word 1#16, .word 0x1000#16]], by decide, rfl⟩

theorem witness_ResetInput :
    (∃ s : State, s.speed = .overdrive ∧ s.host = [.reset] :: []) ∧
    (∃ s : State, (Operand.word 1#16).kind = operandKind 0x4000#16 ∧
      s.host = (.word 0x4000#16 :: (Operand.word 1#16).items ++ .reset :: []) :: []) ∧
    ∃ s : State, operandKind 0x4000#16 ≠ .none ∧ s.host = (.word 0x4000#16 :: .reset :: []) :: [] :=
  ⟨⟨(State.reset.setSpeed .overdrive).setHost [[.reset]], rfl, rfl⟩,
   ⟨State.reset.setHost [[.word 0x4000#16, .word 1#16, .reset]], by decide, rfl⟩,
   ⟨State.reset.setHost [[.word 0x4000#16, .reset]], by decide, rfl⟩⟩

theorem witness_CommandsInOrder :
    (∀ j ∈ [Instr.crci, .crcu 0x66#8], j.wf = true) ∧ Instr.crcr.wf = true ∧
    RunsTo 1 (State.reset.present [.crci]) State.reset.done := by
  refine ⟨by decide, by decide, ?_⟩
  exact ⟨_, rfl, rfl⟩

theorem witness_command_words :
    ((0x1000#16 : Word).toNat / 0x1000 = 0x1 ∧ (0x1001#16 : Word).toNat / 0x1000 = 0x1) ∧
    ((0x20FF#16 : Word).toNat / 0x1000 = 0x2 ∧ (0x2166#16 : Word).toNat / 0x1000 = 0x2) ∧
    ((0x3000#16 : Word).toNat / 0x1000 = 0x3 ∧ (0x3800#16 : Word).toNat / 0x1000 = 0x3) ∧
    ((0x4000#16 : Word).toNat / 0x1000 = 0x4 ∧ (0x4001#16 : Word).toNat / 0x1000 = 0x4) ∧
    ((0x5000#16 : Word).toNat / 0x1000 = 0x5 ∧ (0x5800#16 : Word).toNat / 0x1000 = 0x5 ∧ (0x5001#16 : Word).toNat / 0x1000 = 0x5) ∧
    ((0x6000#16 : Word).toNat / 0x1000 = 0x6 ∧ (0x6800#16 : Word).toNat / 0x1000 = 0x6) := by decide

theorem witness_illegal_words :
    ((0x7F01#16 : Word).toNat / 0x1000 = 0x7 ∧ (0x7F01#16 : Word).toNat % 0x100 ≠ 0) ∧
    ((0x8080#16 : Word).toNat / 0x1000 = 0x8 ∧ (0x8080#16 : Word).toNat % 0x100 ≠ 0) ∧
    ((0x9C13#16 : Word).toNat / 0x1000 = 0x9 ∧ (0x9C13#16 : Word).toNat / 0x10 % 0x10 ≠ 0) ∧
    ((0xA201#16 : Word).toNat / 0x1000 = 0xA ∧ (0xA201#16 : Word).toNat % 0x100 ≠ 0) ∧
    ((0xBF80#16 : Word).toNat / 0x1000 = 0xB ∧ (0xBF80#16 : Word).toNat % 0x100 ≠ 0) := by decide

theorem witness_illegal_derived_words :
    ((0xC200#16 : Word).toNat / 0x1000 = 0xC ∧ 0xC200#16 &&& 0x06FF#16 ≠ 0#16) ∧
    ((0xC800#16 : Word).toNat / 0x1000 = 0xC ∧ (0xC800#16 : Word).getLsbD 8 = false ∧ (0xC800#16 : Word).getLsbD 11 = true) ∧
    ((0xD001#16 : Word).toNat / 0x1000 = 0xD ∧ 0xD001#16 &&& 0x06FF#16 ≠ 0#16) ∧
    ((0xE400#16 : Word).toNat / 0x1000 = 0xE ∧ 0xE400#16 &&& 0x06FF#16 ≠ 0#16) ∧
    ((0xF400#16 : Word).toNat / 0x1000 = 0xF ∧ 0xF400#16 &&& 0x04FF#16 ≠ 0#16) ∧
    ((0xFA00#16 : Word).toNat / 0x1000 = 0xF ∧ (0xFA00#16 : Word).getLsbD 8 = false ∧ (0xFA00#16 : Word).getLsbD 11 = true) := by decide

/-- The bit-level trace of V-CRC-30 as a sequence that meets the loop's recurrence. -/
theorem witness_BitSerialLoop :
    let a : Nat → Word := fun n =>
      [0x0000#16, 0x0000#16, 0xA001#16, 0x5000#16, 0x2800#16, 0x1400#16, 0xAA01#16, 0x5500#16, 0x2A80#16].getD n 0#16
    a 0 = 0x0000#16 ∧
      ∀ i, i < 8 → a (i + 1) = if (a i).getLsbD 0 ^^ (0x66#8 : Byte).getLsbD i then (a i >>> 1) ^^^ 0xA001#16 else a i >>> 1 := by
  decide

theorem witness_Crcc : ∃ s : State, (0x7CDE#16 : Word) = s.crcAcc ^^^ 0xFFFF#16 ∧ (0xDE7C#16 : Word) ≠ s.crcAcc ^^^ 0xFFFF#16 :=
  ⟨State.reset.setCrc 0x8321#16, by decide, by decide⟩

theorem witness_CrcContinues : ∃ s : State, s.crcAcc = acc16 [0x66#8] := ⟨State.reset.setCrc 0x2A80#16, by decide⟩

/-- The last accepted magnitude of tW0L at Overdrive, from the half step below 31.5 us on. -/
theorem witness_Tpsc_accepted :
    (0 : Micros) ≤ 31.5 ∧ IsMagnitude 31.5 504 ∧ IsMagnitude 31.46875 504 ∧ AcceptedMagnitude .tW0L .overdrive 504 := by
  refine ⟨by norm_num, ?_, ?_, ?_⟩
  · constructor <;> norm_num
  · constructor <;> norm_num
  · exact ⟨by norm_num, customMinMag_le_customMaxMag .tW0L .overdrive, le_refl _⟩

/-- The first magnitude past it, and the first that is no 15-bit number, at every (p, s). -/
theorem witness_Tpsc_outOfRange :
    ((0 : Micros) ≤ 31.53125 ∧ IsMagnitude 31.53125 505 ∧ ¬ AcceptedMagnitude .tW0L .overdrive 505) ∧
    ∀ p s, (0 : Micros) ≤ 2048 ∧ IsMagnitude 2048 0x8000 ∧ ¬ AcceptedMagnitude p s 0x8000 := by
  refine ⟨⟨by norm_num, ?_, ?_⟩, fun p s => ⟨by norm_num, ?_, ?_⟩⟩
  · constructor <;> norm_num
  · rintro ⟨-, -, h⟩
    exact absurd h (by decide)
  · constructor <;> norm_num
  · rintro ⟨h, -, -⟩
    exact absurd h (by decide)

theorem witness_Tpsc_negative : (-1 / 2 : Micros) < 0 := by norm_num

/-- The two ends of the accepted half steps, and the first refused time. -/
theorem witness_TpscRange : (504 : Rat) ≤ 31.46875 * 16 + 1 / 2 ∧ (31.53 : Rat) * 16 + 1 / 2 < 505 ∧
    (504 : Rat) ≤ 31.53 * 16 + 1 / 2 ∧ (31.46875 : Rat) * 16 + 1 / 2 < 505 ∧ (505 : Rat) ≤ 31.53125 * 16 + 1 / 2 := by
  norm_num

/-- One image for each clause of TPGT, at both ends of the clause. -/
theorem witness_Tpgt :
    (∃ s : State, 0x8000 ≤ (s.readTp .standard .tREC).toNat ∧ 0x8000 ≤ (s.readTp .overdrive .tREC).toNat) ∧
    (∃ s : State, (s.readTp .standard .tREC).toNat = (0 : Fin 16).val ∧ (s.readTp .overdrive .tREC).toNat = (15 : Fin 16).val) ∧
    ∃ s : State, 15 < (s.readTp .standard .tREC).toNat ∧ (s.readTp .standard .tREC).toNat < 0x8000 ∧
      15 < (s.readTp .overdrive .tREC).toNat ∧ (s.readTp .overdrive .tREC).toNat < 0x8000 :=
  ⟨⟨(withImage .standard .tREC 0x8000#16).writeTp .overdrive .tREC 0xFFFF#16, by decide⟩,
   ⟨(withImage .standard .tREC 0x0000#16).writeTp .overdrive .tREC 0x000F#16, by decide⟩,
   ⟨(withImage .standard .tREC 0x0010#16).writeTp .overdrive .tREC 0x7FFF#16, by decide⟩⟩

theorem witness_Round : (0 : Rat) ≤ 33 / 2 := by norm_num

/-- A custom time that is accepted, and is a multiple of 1/16 us. -/
theorem witness_CustomRoundTrip :
    ∃ s t : State, exec (.tpsc .overdrive .tW0L 31.5) s = .next t ∧ t.response = some ⟨.ok, none⟩ ∧
      (31.5 : Micros) = ((504 : Int) : Rat) / 16 := by
  refine ⟨State.reset, (State.reset.writeTp .overdrive .tW0L 0x81F8#16).done, ?_, rfl, by norm_num⟩
  show Host.Outcome.next _ = _
  rw [test_encode_31_5]
  rfl

theorem witness_EveryImage : ∃ s t : State, exec (.tpsp .overdrive .tMSR 15#4) s = .next t := ⟨State.reset, _, rfl⟩

theorem witness_ImagesIndependent : ∃ s t : State, exec (.tprw .overdrive .tMSR 0xFFFF#16) s = .next t ∧
    t.readTp .overdrive .tMSR ≠ s.readTp .overdrive .tMSR := ⟨State.reset, _, rfl, by decide⟩

theorem witness_LegalSelection : LegalSelection false .standard ∧ LegalSelection true .standard ∧ LegalSelection true .overdrive :=
  ⟨.inr rfl, .inl rfl, .inl rfl⟩

/-- Two states that differ in SPEED and in every image that enters no derived time. -/
theorem witness_FourParameters : ∃ a b : State, a.speed ≠ b.speed ∧ a.readTp .standard .tMSP ≠ b.readTp .standard .tMSP ∧
    ∀ t p, p = .tRSTL ∨ p = .tRSTH ∨ p = .tW0L ∨ p = .tREC → a.readTp t p = b.readTp t p := by
  refine ⟨dt18, (dt18.setSpeed .overdrive).writeTp .standard .tMSP 0x8001#16, by decide, by decide, ?_⟩
  rintro t p (rfl | rfl | rfl | rfl) <;> cases t <;> decide

theorem witness_CustomBitTimes : 0x8000 ≤ (dt5.readTp .standard .tW0L).toNat ∧ 0x8000 ≤ (dt5.readTp .standard .tREC).toNat := by
  decide

theorem witness_Errors : ∃ (s t : State) (r : Response), step s = .next t ∧ t.response = some r ∧ r.code ≠ .ok :=
  ⟨(State.reset.setCrc 0x8321#16).setHost [encode (.crcc 0xDE7C#16)], _, _, rfl, rfl, by decide⟩

theorem witness_OnlySpeed : ∃ s t : State, step s = .next t ∧ t.speed ≠ s.speed :=
  ⟨State.reset.setHost [encode (.spdw .overdrive)], _, rfl, by decide⟩

theorem witness_OnlySpeed_reset : ∃ s t : State, step s = .next t ∧ t.speed ≠ s.speed :=
  ⟨(State.reset.setSpeed .overdrive).setHost [[.reset]], _, rfl, by decide⟩

theorem witness_OnlyCrcAcc : ∃ s t : State, step s = .next t ∧ t.crcAcc ≠ s.crcAcc :=
  ⟨State.reset.setHost [encode (.crcu 0x80#8)], _, rfl, by decide⟩

theorem witness_OnlyCrcAcc_crci : ∃ s t : State, step s = .next t ∧ t.crcAcc ≠ s.crcAcc :=
  ⟨(State.reset.setCrc 1#16).setHost [encode .crci], _, rfl, by decide⟩

theorem witness_OnlyImages : ∃ s t : State, step s = .next t ∧ t.readTp .overdrive .tMSR ≠ s.readTp .overdrive .tMSR :=
  ⟨State.reset.setHost [encode (.tprw .overdrive .tMSR 0xFFFF#16)], _, rfl, by decide⟩

theorem witness_EveryCommand : (Instr.bytt true .overdrive).wf = true ∧
    (∃ t r, exec (.crcc 0#16) State.reset = .next t ∧ t.response = some r ∧ r.code = .errCrc ∧ r.code ≠ .ok) ∧
    ∃ t r, exec (.tpsc .standard .tREC (-1)) State.reset = .next t ∧ t.response = some r ∧ r.code = .errRange := by
  refine ⟨rfl, ⟨_, _, rfl, rfl, by decide, by decide⟩, ⟨State.reset.raise .errRange, _, ?_, rfl, rfl⟩⟩
  show Host.Outcome.next _ = _
  rw [encodeCustom_negative (by norm_num)]
  rfl

theorem witness_Reads : Instr.spdr.wf = true ∧ (Instr.blkt true .overdrive true 0xFFFF#16).wf = true := by decide

/-- A state that meets the invariant, and a step from it that answers a value. -/
theorem witness_Inv : ∃ s t : State, s.Inv ∧ step s = .next t ∧ t.response = some ⟨.ok, some (.word 0xFFFF#16)⟩ := by
  refine ⟨State.reset.setHost [encode .crcr], _, ?_, rfl, by decide⟩
  intro r h
  cases h

theorem witness_SetterImages : ∃ s t : State, s.SetterImages ∧
    (∀ sp p w rest, s.host ≠ encode (.tprw sp p w) :: rest) ∧ step s = .next t ∧ t.readTp .overdrive .tREC = 0x0003#16 := by
  refine ⟨State.reset.setHost [encode (.tpsp .overdrive .tREC 3#4)], _, ?_, ?_, rfl, by decide⟩
  · intro s p
    left
    simp
  · intro sp p w rest h
    have := congrArg (fun l : List Turn => (l.headD []).length) h
    simp [encode, Instr.operand, Operand.items] at this

theorem witness_Boot :
    ([(Speed.standard, Param.tW0L, (0x83C0#16 : Word)), (.overdrive, .tW0L, 0x8010#16)].map fun x => (x.1, x.2.1)).Nodup := by
  decide

theorem witness_Idle : State.reset.host = [] := rfl

end Sys2Proof.Tests
end

section
/-! Rounding (spec/00_scope.md R10): `roundHalfUp` is Mathlib's `round`, so it is nearest; and every larger integer is
strictly farther away, so a tie goes to the larger integer. -/

namespace Sys2Proof.Machine

theorem roundHalfUp_eq_round (x : Rat) : roundHalfUp x = round x := (round_eq x).symm

theorem abs_roundHalfUp_sub_le (x : Rat) (n : Int) : |(roundHalfUp x : Rat) - x| ≤ |(n : Rat) - x| := by
  rw [roundHalfUp_eq_round, abs_sub_comm, abs_sub_comm (n : Rat)]
  exact round_le x n

theorem abs_roundHalfUp_sub_le_half (x : Rat) : |(roundHalfUp x : Rat) - x| ≤ 1 / 2 := by
  rw [roundHalfUp_eq_round, abs_sub_comm]
  exact abs_sub_round x

/-- No tie with a larger integer: the next one up is already more than 1/2 away. -/
theorem abs_roundHalfUp_sub_lt_of_lt {x : Rat} {n : Int} (h : roundHalfUp x < n) :
    |(roundHalfUp x : Rat) - x| < |(n : Rat) - x| := by
  have hn : (roundHalfUp x : Rat) + 1 ≤ n := by exact_mod_cast h
  calc |(roundHalfUp x : Rat) - x| ≤ 1 / 2 := abs_roundHalfUp_sub_le_half x
    _ < roundHalfUp x + 1 - x := by linarith [lt_roundHalfUp x]
    _ ≤ n - x := by linarith
    _ ≤ |(n : Rat) - x| := le_abs_self _

/-- Settles O36: nearest as Mathlib's `round`, and a larger integer at the same distance is impossible. -/
theorem roundIsNearestAndHalfUp : Obligations.RoundIsNearestAndHalfUp := by
  unfold Obligations.RoundIsNearestAndHalfUp
  intro x _ n
  refine ⟨abs_roundHalfUp_sub_le x n, fun htie => ?_⟩
  by_contra hlt
  exact (abs_roundHalfUp_sub_lt_of_lt (not_le.mp hlt)).ne' htie

end Sys2Proof.Machine
end

section
/-! The block's state (spec/10_state.md): its values after reset (R31), what its images can hold (R28), and that each image
is changed only by a command that names it (R25). -/

namespace Sys2Proof.Machine

/-- Settles O13: the reset state as its field lemmas give it. -/
theorem resetValues : Obligations.ResetValues := ⟨reset_speed, readTp_reset, reset_crcAcc⟩

/-! ## What the images can hold -/

/-- A command whose whole effect is its response. -/
theorem answersOnly_of_exec_respond {i : Instr} {s : State} {c : Code} {v : Option Value}
    (h : exec i s = .next (s.respond c v)) : AnswersOnly i s c v :=
  ⟨s.respond c v, h, ⟨rfl, rfl, rfl⟩, rfl, rfl⟩

theorem answersOnly_tprr (s : State) (sp : Speed) (p : Param) :
    AnswersOnly (.tprr sp p) s .ok (some (.word (s.readTp sp p))) :=
  answersOnly_of_exec_respond rfl

theorem answersOnly_tpgt (s : State) (sp : Speed) (p : Param) :
    AnswersOnly (.tpgt sp p) s .ok (some (.micros (s.value p sp))) :=
  answersOnly_of_exec_respond rfl

/-- TPSC answers OK only where the encoding succeeded, and then the image is what it gave. -/
theorem encodeCustom_of_exec_tpsc_ok {s t : State} {sp : Speed} {p : Param} {us : Micros}
    (h : exec (.tpsc sp p us) s = .next t) (hok : t.response = some ⟨.ok, none⟩) :
    encodeCustom p sp us = some (t.readTp sp p) := by
  obtain rfl : storeCustom sp p (encodeCustom p sp us) s = t := Host.Outcome.next.inj h
  rcases storeCustom_cases sp p (encodeCustom p sp us) s with ⟨w, hw, hstored⟩ | ⟨-, hraised⟩
  · rw [hstored, done_readTp, readTp_writeTp_same, hw]
  · simp [hraised] at hok

/-- Settles O39: TPRW stores any word, TPSP a zero-extended index, and TPSC what `encodeCustom` gives. -/
theorem everyImageIsHeldAndDecoded : Obligations.EveryImageIsHeldAndDecoded := by
  unfold Obligations.EveryImageIsHeldAndDecoded
  refine ⟨fun s sp p w => ?tprw, fun s t sp p i h => ?tpsp, fun s t sp p us h hok => ?tpsc⟩
  case tprw =>
    refine ⟨(s.writeTp sp p w).done, rfl, ?_, _, answersOnly_tpgt _ sp p⟩
    simpa using answersOnly_tprr (s.writeTp sp p w).done sp p
  case tpsp =>
    obtain rfl : (s.writeTp sp p (presetImage i)).done = t := Host.Outcome.next.inj h
    rw [done_readTp, readTp_writeTp_same, presetImage_toNat]
    exact Nat.le_of_lt_succ i.isLt
  case tpsc =>
    obtain ⟨-, hmin, hmax, himage⟩ := encodeCustom_eq_some.mp (encodeCustom_of_exec_tpsc_ok h hok)
    exact ⟨_, himage, hmin, hmax, hmax.trans (customMaxMag_le p sp)⟩

/-! ## The images are independent -/

theorem tp_getElem?_tpIndex (s : State) (sp : Speed) (p : Param) :
    s.tp.toList[(tpIndex sp p).val]? = some (s.readTp sp p) := by
  simp [State.readTp, Vector.get_eq_getElem]

/-- A command that changes an image is a TPRW, TPSP or TPSC with that image's own S and P. -/
theorem exec_changes_readTp {i : Instr} {s t : State} {sp : Speed} {p : Param} (h : exec i s = .next t)
    (hne : t.readTp sp p ≠ s.readTp sp p) :
    (∃ w, i = .tprw sp p w) ∨ (∃ n, i = .tpsp sp p n) ∨ ∃ us, i = .tpsc sp p us := by
  rcases exec_cases h with ⟨c, v, rfl⟩ | ⟨-, rfl⟩ | ⟨d, -, rfl⟩ | ⟨x, -, rfl⟩ | ⟨sp', p', w, hi, rfl⟩
  · exact absurd rfl hne
  · exact absurd rfl hne
  · exact absurd rfl hne
  · exact absurd rfl hne
  · obtain ⟨rfl, rfl⟩ : sp = sp' ∧ p = p' := by
      by_contra hother
      exact hne (readTp_writeTp_other s w hother)
    rcases hi with rfl | ⟨n, rfl, -⟩ | ⟨us, rfl, -⟩
    · exact .inl ⟨w, rfl⟩
    · exact .inr (.inl ⟨n, rfl⟩)
    · exact .inr (.inr ⟨us, rfl⟩)

/-- Settles O40: the indices by evaluation, and a change of an image by the inversion of `exec`. -/
theorem imagesAreIndependent : Obligations.ImagesAreIndependent :=
  ⟨by decide, by decide, tp_getElem?_tpIndex, fun _ _ _ _ _ => exec_changes_readTp⟩

end Sys2Proof.Machine
end

section
/-! The bytes of a word (spec/20_memory.md R53): `ser16` gives the low byte and then the high byte, and `deser16` is the sum
of their places. -/

namespace Sys2Proof

theorem extractLsb'_low_byte (w : Word) : w.extractLsb' 0 8 = BitVec.ofNat 8 w.toNat :=
  BitVec.eq_of_toNat_eq (by simp)

theorem extractLsb'_high_byte (w : Word) : w.extractLsb' 8 8 = BitVec.ofNat 8 (w.toNat / 0x100) :=
  BitVec.eq_of_toNat_eq (by simp [Nat.shiftRight_eq_div_pow])

theorem ser16_eq (w : Word) : ser16 w = [BitVec.ofNat 8 w.toNat, BitVec.ofNat 8 (w.toNat / 0x100)] := by
  rw [ser16, extractLsb'_low_byte, extractLsb'_high_byte]

/-- The two bytes share no bit: R53's word is the high byte followed by the low byte. -/
theorem deser16_eq_append (b0 b1 : Byte) : deser16 b0 b1 = b1 ++ b0 := by
  rw [BitVec.append_def, BitVec.shiftLeftZeroExtend_eq, BitVec.setWidth'_eq]
  exact BitVec.or_comm _ _

theorem deser16_toNat (b0 b1 : Byte) : (deser16 b0 b1).toNat = b0.toNat + 0x100 * b1.toNat := by
  rw [deser16_eq_append, BitVec.toNat_append, ← Nat.shiftLeft_add_eq_or_of_lt b0.isLt, Nat.shiftLeft_eq]
  omega

theorem deser16_of_ser16 {w : Word} {b0 b1 : Byte} (h : ser16 w = [b0, b1]) : deser16 b0 b1 = w := by
  rw [ser16_eq, List.cons.injEq, List.cons.injEq] at h
  obtain ⟨rfl, rfl, -⟩ := h
  have hw : w.toNat < 0x10000 := w.isLt
  apply BitVec.eq_of_toNat_eq
  rw [deser16_toNat, BitVec.toNat_ofNat, BitVec.toNat_ofNat]
  omega

/-- Settles O6: both directions of R53, and the round trip from their place values. -/
theorem imagesAreSerialisedLowByteFirst : Obligations.ImagesAreSerialisedLowByteFirst :=
  ⟨ser16_eq, deser16_toNat, fun _ _ _ => deser16_of_ser16⟩

end Sys2Proof
end

section
/-! Decoding a presented command (spec/30_encoding.md R72 to R80): the turn that presents a well-formed command decodes to
it. -/

namespace Sys2Proof

theorem decode_crcu (d : Byte) : decode (Instr.crcu d).word .none = some (.crcu d) := by
  revert d
  decide +kernel

theorem decode_tpsp (s : Speed) (p : Param) (n : BitVec 4) : decode (Instr.tpsp s p n).word .none = some (.tpsp s p n) := by
  revert n
  cases s <;> cases p <;> decide +kernel

/-- The three selections of R77 are all that a well-formed derived-time command has. -/
theorem selWf_cases {e : Bool} {s : Speed} (h : selWf e s = true) :
    (e = false ∧ s = .standard) ∨ (e = true ∧ s = .standard) ∨ (e = true ∧ s = .overdrive) := by
  cases e with
  | false => exact .inl ⟨rfl, of_decide_eq_true h⟩
  | true =>
    cases s with
    | standard => exact .inr (.inl ⟨rfl, rfl⟩)
    | overdrive => exact .inr (.inr ⟨rfl, rfl⟩)

/-- The decoder reads every field of a well-formed command back from its word and operand. Where there is an operand, the
word does not depend on it and is written out first. -/
theorem decode_word_operand {i : Instr} (h : i.wf = true) : decode i.word i.operand = some i := by
  cases i with
  | crci => rfl
  | crcu d => exact decode_crcu d
  | crcr => rfl
  | crcc w => rw [Instr.word]; rfl
  | spdw s => cases s <;> rfl
  | spdr => rfl
  | tprr s p => cases s <;> cases p <;> rfl
  | tprw s p w => rw [Instr.word]; cases s <;> cases p <;> rfl
  | tpsp s p n => exact decode_tpsp s p n
  | tpsc s p us => rw [Instr.word]; cases s <;> cases p <;> rfl
  | tpgt s p => cases s <;> cases p <;> rfl
  | bitt e s => rcases selWf_cases h with ⟨rfl, rfl⟩ | ⟨rfl, rfl⟩ | ⟨rfl, rfl⟩ <;> rfl
  | rstt e s => rcases selWf_cases h with ⟨rfl, rfl⟩ | ⟨rfl, rfl⟩ | ⟨rfl, rfl⟩ <;> rfl
  | bytt e s => rcases selWf_cases h with ⟨rfl, rfl⟩ | ⟨rfl, rfl⟩ | ⟨rfl, rfl⟩ <;> rfl
  | blkt e s r n =>
    rw [Instr.word]
    rcases selWf_cases h with ⟨rfl, rfl⟩ | ⟨rfl, rfl⟩ | ⟨rfl, rfl⟩ <;> cases r <;> rfl

theorem fetch_encode {i : Instr} (h : i.wf = true) : fetch (encode i) = .command i := by
  rw [encode, fetch_whole (operand_kind i), decode_word_operand h]

end Sys2Proof
end

section
/-! The order of commands (spec/20_memory.md R61): every command answers a next state, so a run over presented commands goes
command by command. -/

namespace Sys2Proof.Machine

/-- Every command answers a next state: an error is a response (spec/60_exceptions.md R180). -/
theorem exec_next (i : Instr) (s : State) : ∃ t, exec i s = .next t := by
  cases i <;> exact ⟨_, rfl⟩

/-- A run over a single presented command is that command, on the state with its turn taken. -/
theorem runsTo_present_singleton {i : Instr} {s t : State} (hi : i.wf = true) :
    RunsTo 1 (s.present [i]) t ↔ exec i (s.present []) = .next t := by
  have hstep : step (s.present [i]) = exec i (s.present []) := step_command (t := encode i) rfl (fetch_encode hi)
  simp [RunsTo, hstep]

/-- R61: the run of `is` and then `i` is the run of `is`, then `i` on the state it left. -/
theorem runsTo_present_concat {is : List Instr} {i : Instr} {s t : State} (his : ∀ j ∈ is, j.wf = true)
    (hi : i.wf = true) : RunsTo (is.length + 1) (s.present (is ++ [i])) t ↔
      ∃ u, RunsTo is.length (s.present is) u ∧ exec i u = .next t := by
  induction is generalizing s with
  | nil =>
    rw [List.nil_append, List.length_nil, runsTo_present_singleton hi]
    simp [RunsTo]
  | cons j is ih =>
    obtain ⟨hj, hrest⟩ := List.forall_mem_cons.mp his
    obtain ⟨u, hu⟩ := exec_next j s
    have hfirst {k : Nat} {js : List Instr} {v : State} :
        RunsTo (k + 1) (s.present (j :: js)) v ↔ RunsTo k (u.present js) v :=
      runsTo_present_cons (fetch_encode hj) hu
    simp only [List.cons_append, List.length_cons, hfirst]
    exact ih hrest

/-- Settles O15, by induction on the commands before the last. -/
theorem commandsTakeEffectInOrder : Obligations.CommandsTakeEffectInOrder :=
  fun _ _ _ _ => runsTo_present_concat

end Sys2Proof.Machine
end

section
/-! The operand kinds of R72 and the illegal words of R78 (spec/30_encoding.md). A field of a command word, put back in its
place, is the word masked to that field's bits; so where the reserved-zero bits are 0 the fields make up the whole word. -/

namespace Sys2Proof

/-! ## OP and the operand kind (R72) -/

theorem fieldOp_eq_div (cw : Word) : fieldOp cw = cw.toNat / 0x1000 := by
  have hlt : cw.toNat < 0x10000 := cw.isLt
  rw [fieldOp, BitVec.extractLsb'_toNat, Nat.shiftRight_eq_div_pow]
  omega

theorem fieldOp_lt (cw : Word) : fieldOp cw < 0x10 := (cw.extractLsb' 12 4).isLt

/-- Settles O4: the arms of `operandKind` are the rows of R72's table. -/
theorem operandIsFixedByOpAlone : Obligations.OperandIsFixedByOpAlone := by
  unfold Obligations.OperandIsFixedByOpAlone
  intro cw
  rw [← fieldOp_eq_div, operandKind]
  split
  case h_1 hop | h_2 hop | h_3 hop | h_4 hop => simp [hop]
  case h_5 h4 h8 hF hA => rw [if_neg (by tauto), if_neg hA]

/-! ## The fields in their places (R73) -/

theorem extractLsb'_in_place (cw : Word) (start len : Nat) :
    (cw.extractLsb' start len).setWidth 16 <<< start = cw &&& (BitVec.allOnes len).setWidth 16 <<< start := by
  ext i hi
  by_cases hlow : i < start
  · simp [hlow]
  · simp [hlow, Nat.add_sub_cancel' (not_lt.mp hlow), Bool.and_comm, hi]

theorem fieldOp_in_place {cw : Word} {op : Nat} (h : fieldOp cw = op) :
    BitVec.ofNat 16 (0x1000 * op) = cw &&& 0xF000#16 := by
  have hshift : BitVec.ofNat 16 (0x1000 * op) = BitVec.ofNat 16 op <<< 12 := by
    rw [BitVec.shiftLeft_eq_mul_twoPow, BitVec.ofNat_mul, BitVec.mul_comm]
    rfl
  rw [hshift, ← h, fieldOp, BitVec.ofNat_toNat]
  exact extractLsb'_in_place cw 12 4

theorem fieldS_bits (cw : Word) : (fieldS cw).bits = cw &&& 0x0800#16 := by
  have hmask : cw &&& 0x0800#16 = if cw.getLsbD 11 then 0x0800#16 else 0#16 := BitVec.and_twoPow cw 11
  rw [hmask, fieldS]
  cases cw.getLsbD 11 <;> rfl

theorem bitsR_fieldR (cw : Word) : bitsR (fieldR cw) = cw &&& 0x0200#16 := (BitVec.and_twoPow cw 9).symm

theorem bitsE_fieldE (cw : Word) : bitsE (fieldE cw) = cw &&& 0x0100#16 := (BitVec.and_twoPow cw 8).symm

theorem code_ofCode {n : Nat} (h : n < 8) : (Param.ofCode n).code = n := by
  interval_cases n <;> rfl

theorem fieldP_bits (cw : Word) : (fieldP cw).bits = cw &&& 0x0700#16 := by
  rw [Param.bits, fieldP, code_ofCode (BitVec.isLt _), BitVec.ofNat_toNat]
  exact extractLsb'_in_place cw 8 3

theorem fieldD_setWidth (cw : Word) : (fieldD cw).setWidth 16 = cw &&& 0x00FF#16 := by
  simpa [fieldD] using extractLsb'_in_place cw 0 8

theorem fieldI_setWidth (cw : Word) : (fieldI cw).setWidth 16 = cw &&& 0x000F#16 := by
  simpa [fieldI] using extractLsb'_in_place cw 0 4

/-! ## The formats (R74): the fields of a word whose reserved-zero bits are 0 make up the word -/

theorem and_not_eq_self_of_rz {cw mask : Word} (h : rz cw mask = true) : cw &&& ~~~mask = cw := by
  have hzero : cw &&& mask = 0#16 := by simpa [rz] using h
  calc cw &&& ~~~mask = (cw &&& mask) ||| (cw &&& ~~~mask) := by rw [hzero, BitVec.zero_or]
    _ = cw &&& (mask ||| ~~~mask) := BitVec.and_or_distrib_left.symm
    _ = cw := by rw [BitVec.or_not_self, BitVec.and_allOnes]

theorem word_of_formatN {cw : Word} {op : Nat} (hop : fieldOp cw = op) (hz : rz cw 0x0FFF#16 = true) :
    BitVec.ofNat 16 (0x1000 * op) = cw := by
  rw [fieldOp_in_place hop]
  exact and_not_eq_self_of_rz hz

theorem word_of_formatB {cw : Word} {op : Nat} (hop : fieldOp cw = op) (hz : rz cw 0x0F00#16 = true) :
    BitVec.ofNat 16 (0x1000 * op) ||| (fieldD cw).setWidth 16 = cw := by
  rw [fieldOp_in_place hop, fieldD_setWidth, ← BitVec.and_or_distrib_left]
  exact and_not_eq_self_of_rz hz

theorem word_of_formatS {cw : Word} {op : Nat} (hop : fieldOp cw = op) (hz : rz cw 0x07FF#16 = true) :
    BitVec.ofNat 16 (0x1000 * op) ||| (fieldS cw).bits = cw := by
  rw [fieldOp_in_place hop, fieldS_bits, ← BitVec.and_or_distrib_left]
  exact and_not_eq_self_of_rz hz

theorem word_of_formatP {cw : Word} {op : Nat} (hop : fieldOp cw = op) (hz : rz cw 0x00FF#16 = true) :
    BitVec.ofNat 16 (0x1000 * op) ||| (fieldS cw).bits ||| (fieldP cw).bits = cw := by
  rw [fieldOp_in_place hop, fieldS_bits, fieldP_bits, ← BitVec.and_or_distrib_left, ← BitVec.and_or_distrib_left]
  exact and_not_eq_self_of_rz hz

theorem word_of_formatPI {cw : Word} {op : Nat} (hop : fieldOp cw = op) (hz : rz cw 0x00F0#16 = true) :
    BitVec.ofNat 16 (0x1000 * op) ||| (fieldS cw).bits ||| (fieldP cw).bits ||| (fieldI cw).setWidth 16 = cw := by
  rw [fieldOp_in_place hop, fieldS_bits, fieldP_bits, fieldI_setWidth, ← BitVec.and_or_distrib_left,
    ← BitVec.and_or_distrib_left, ← BitVec.and_or_distrib_left]
  exact and_not_eq_self_of_rz hz

theorem word_of_formatT {cw : Word} {op : Nat} (hop : fieldOp cw = op) (hz : rz cw 0x06FF#16 = true) :
    BitVec.ofNat 16 (0x1000 * op) ||| (fieldS cw).bits ||| bitsE (fieldE cw) = cw := by
  rw [fieldOp_in_place hop, fieldS_bits, bitsE_fieldE, ← BitVec.and_or_distrib_left, ← BitVec.and_or_distrib_left]
  exact and_not_eq_self_of_rz hz

theorem word_of_formatTW {cw : Word} {op : Nat} (hop : fieldOp cw = op) (hz : rz cw 0x04FF#16 = true) :
    BitVec.ofNat 16 (0x1000 * op) ||| (fieldS cw).bits ||| bitsR (fieldR cw) ||| bitsE (fieldE cw) = cw := by
  rw [fieldOp_in_place hop, fieldS_bits, bitsR_fieldR, bitsE_fieldE, ← BitVec.and_or_distrib_left,
    ← BitVec.and_or_distrib_left, ← BitVec.and_or_distrib_left]
  exact and_not_eq_self_of_rz hz

/-! ## Legal words (R78, R79) -/

/-- INVERSION: a word and operand that decode are those of the command they decode to, and it is well formed. One case per
format of R74; the reserved OP decodes to nothing. -/
theorem decode_eq_some {cw : Word} {x : Operand} {i : Instr} (h : decode cw x = some i) :
    i.wf = true ∧ i.word = cw ∧ i.operand = x := by
  unfold decode at h
  split at h
  all_goals simp only [Option.ite_none_right_eq_some, bare_eq_some, withWord_eq_some, withUs_eq_some, Bool.and_eq_true,
    Machine.legalSel_eq_selWf, reduceCtorEq] at h
  case h_1 hop | h_3 hop | h_6 hop =>
    obtain ⟨hz, rfl, rfl⟩ := h
    exact ⟨rfl, (word_of_formatN hop hz :), rfl⟩
  case h_2 hop =>
    obtain ⟨hz, rfl, rfl⟩ := h
    exact ⟨rfl, (word_of_formatB hop hz :), rfl⟩
  case h_4 hop =>
    obtain ⟨hz, w, rfl, rfl⟩ := h
    exact ⟨rfl, (word_of_formatN hop hz :), rfl⟩
  case h_5 hop =>
    obtain ⟨hz, rfl, rfl⟩ := h
    exact ⟨rfl, (word_of_formatS hop hz :), rfl⟩
  case h_7 hop | h_11 hop =>
    obtain ⟨hz, rfl, rfl⟩ := h
    exact ⟨rfl, (word_of_formatP hop hz :), rfl⟩
  case h_8 hop | h_10 hop =>
    obtain ⟨hz, operand, rfl, rfl⟩ := h
    exact ⟨rfl, (word_of_formatP hop hz :), rfl⟩
  case h_9 hop =>
    obtain ⟨hz, rfl, rfl⟩ := h
    exact ⟨rfl, (word_of_formatPI hop hz :), rfl⟩
  case h_12 hop | h_13 hop | h_14 hop =>
    obtain ⟨⟨hz, hsel⟩, rfl, rfl⟩ := h
    exact ⟨hsel, (word_of_formatT hop hz :), rfl⟩
  case h_15 hop =>
    obtain ⟨⟨hz, hsel⟩, n, rfl, rfl⟩ := h
    exact ⟨hsel, (word_of_formatTW hop hz :), rfl⟩

/-! ## Illegal words (R78) -/

theorem rz_eq_false_iff {cw mask : Word} : rz cw mask = false ↔ cw &&& mask ≠ 0#16 := by
  simp [rz]

theorem legalSel_fields_eq_false_iff {cw : Word} :
    legalSel (fieldE cw) (fieldS cw) = false ↔ cw.getLsbD 8 = false ∧ cw.getLsbD 11 = true := by
  rw [fieldE, fieldS]
  cases cw.getLsbD 8 <;> cases cw.getLsbD 11 <;> decide

/-- R78's three reasons, in the decoder's terms. -/
theorem illegalWord_iff {cw : Word} : IllegalWord cw ↔
    fieldOp cw = 0 ∨ rz cw (reservedZeroBits (fieldOp cw)) = false ∨
      (0xC ≤ fieldOp cw ∧ legalSel (fieldE cw) (fieldS cw) = false) := by
  rw [IllegalWord, rz_eq_false_iff, legalSel_fields_eq_false_iff, fieldOp_eq_div]

theorem bare_ne_none {x : Operand} {i : Instr} (h : x.kind = .none) : bare x i ≠ none := by
  cases x <;> cases h
  simp

theorem withWord_ne_none {x : Operand} {k : Word → Instr} (h : x.kind = .word) : withWord x k ≠ none := by
  cases x <;> cases h
  simp

theorem withUs_ne_none {x : Operand} {k : Micros → Instr} (h : x.kind = .us) : withUs x k ≠ none := by
  cases x <;> cases h
  simp

/-- With an operand of the kind its OP calls for, a word is illegal exactly where the decoder has no command for it: the
guard of each arm is R78 (b) for that OP, and (c) beside it from 0xC on. -/
theorem decode_eq_none_iff {cw : Word} {x : Operand} (hk : x.kind = operandKind cw) :
    decode cw x = none ↔ IllegalWord cw := by
  rw [illegalWord_iff]
  unfold decode
  split
  case h_1 hop | h_2 hop | h_3 hop | h_5 hop | h_6 hop | h_7 hop | h_9 hop | h_11 hop =>
    rw [operandKind, hop] at hk
    simp [hop, reservedZeroBits, bare_ne_none hk]
  case h_4 hop | h_8 hop =>
    rw [operandKind, hop] at hk
    simp [hop, reservedZeroBits, withWord_ne_none hk]
  case h_10 hop =>
    rw [operandKind, hop] at hk
    simp [hop, reservedZeroBits, withUs_ne_none hk]
  case h_12 hop | h_13 hop | h_14 hop =>
    rw [operandKind, hop] at hk
    simp [hop, reservedZeroBits, bare_ne_none hk, imp_iff_not_or]
  case h_15 hop =>
    rw [operandKind, hop] at hk
    simp [hop, reservedZeroBits, withWord_ne_none hk, imp_iff_not_or]
  case h_16 =>
    have hlt := fieldOp_lt cw
    have hzero : fieldOp cw = 0 := by grind
    exact iff_of_true rfl (.inl hzero)

end Sys2Proof

namespace Sys2Proof.Machine

/-- Settles O3: an illegal word decodes to nothing (`decode_eq_none_iff`); any other decodes to a command whose word and
operand are the ones presented (`decode_eq_some`), and it is the only one since the turn decodes to it alone. -/
theorem illegalWordsAreAnsweredAndConsumed : Obligations.IllegalWordsAreAnsweredAndConsumed := by
  unfold Obligations.IllegalWordsAreAnsweredAndConsumed
  intro cw x s rest hk hhost
  have hfetch := fetch_whole hk
  refine ⟨fun hill => ?illegal, fun hlegal => ?legal⟩
  case illegal =>
    rw [(decode_eq_none_iff hk).mpr hill] at hfetch
    exact ⟨_, step_illegal hhost hfetch, ⟨rfl, rfl, rfl⟩, rfl, rfl⟩
  case legal =>
    obtain ⟨i, hi⟩ := Option.ne_none_iff_exists'.mp (mt (decode_eq_none_iff hk).mp hlegal)
    obtain ⟨hwf, rfl, rfl⟩ := decode_eq_some hi
    rw [hi] at hfetch
    refine ⟨i, hwf, rfl, fun j hj hturn => ?_, step_command hhost hfetch⟩
    have hsame : Fetched.command j = .command i := by rw [← fetch_encode hj, hturn, hfetch]
    exact Fetched.command.inj hsame

end Sys2Proof.Machine
end

section
/-! The words of an OP (spec/30_encoding.md R74, R78): where every other word of the OP is illegal, the decoder gives one
command for its word and nothing for the rest. -/

namespace Sys2Proof

/-- R72: words with the same OP are followed by the same kind of operand. -/
theorem operandKind_eq_of_op_eq {cw cw' : Word} (h : cw.toNat / 0x1000 = cw'.toNat / 0x1000) :
    operandKind cw = operandKind cw' := by
  rw [operandKind, operandKind, fieldOp_eq_div, fieldOp_eq_div, h]

/-- A word presented with the operand of `i`, of the same OP as `i`, is `i` or illegal. -/
theorem fetch_eq_ite_of_illegal {cw : Word} {i : Instr} (hi : i.wf = true)
    (hop : cw.toNat / 0x1000 = i.word.toNat / 0x1000) (hill : cw ≠ i.word → IllegalWord cw) :
    fetch (.word cw :: i.operand.items) = if cw = i.word then .command i else .illegal := by
  have hk : i.operand.kind = operandKind cw := (operand_kind i).trans (operandKind_eq_of_op_eq hop.symm)
  split_ifs with hcw
  · rw [hcw]
    exact fetch_encode hi
  · rw [fetch_whole hk, (decode_eq_none_iff hk).mpr (hill hcw)]

/-- R78 (b): a word is illegal unless its reserved-zero bits are all 0. -/
theorem illegalWord_of_rz {cw : Word} {op : Nat} (hop : cw.toNat / 0x1000 = op) (hz : rz cw (reservedZeroBits op) ≠ true) :
    IllegalWord cw :=
  .inr (.inl (by simpa [rz, hop] using hz))

/-- Formats N and NW: the OP has one legal word, the one whose other bits are all 0. -/
theorem fetch_formatN {cw : Word} {op : Nat} {i : Instr} (hi : i.wf = true) (hword : i.word = BitVec.ofNat 16 (0x1000 * op))
    (hmask : reservedZeroBits op = 0x0FFF#16) (hop : cw.toNat / 0x1000 = op) :
    fetch (.word cw :: i.operand.items) = if cw = i.word then .command i else .illegal := by
  have hlt : cw.toNat < 0x10000 := cw.isLt
  apply fetch_eq_ite_of_illegal hi
  · rw [hword, BitVec.toNat_ofNat]
    omega
  · intro hcw
    refine illegalWord_of_rz hop fun hz => hcw ?_
    rw [hmask] at hz
    rw [hword, word_of_formatN ((fieldOp_eq_div cw).trans hop) hz]

end Sys2Proof
end

section
/-! The CRC-16 commands (spec/40_crc16.md R100 to R104): what each does to the state, and the words of its OP. -/

namespace Sys2Proof.Machine

/-! ## What they do -/

theorem exec_crci (s : State) : exec .crci s = .next (s.setCrc 0x0000#16).done := rfl

theorem exec_crcu (d : Byte) (s : State) : exec (.crcu d) s = .next (s.setCrc (crcStep s.crcAcc d)).done := rfl

theorem exec_crcr (s : State) : exec .crcr s = .next (s.respond .ok (some (.word (finalCrc s.crcAcc)))) := rfl

theorem exec_crcc (w : Word) (s : State) : exec (.crcc w) s = .next (s.respond (crcCode s.crcAcc w) none) := rfl

/-- A command whose whole effect is a new CRC_ACC and the response OK. -/
theorem writesCrcOnly_of_exec {i : Instr} {s : State} {a : Word} (h : exec i s = .next (s.setCrc a).done) :
    ∃ t, exec i s = .next t ∧ t.crcAcc = a ∧ t.speed = s.speed ∧ t.tp = s.tp ∧ t.host = s.host ∧
      t.response = some ⟨.ok, none⟩ :=
  ⟨_, h, rfl, rfl, rfl, rfl, rfl⟩

theorem answersOnly_crcr (s : State) : AnswersOnly .crcr s .ok (some (.word (finalCrc s.crcAcc))) :=
  answersOnly_of_exec_respond (exec_crcr s)

theorem answersOnly_crcc (s : State) (w : Word) : AnswersOnly (.crcc w) s (crcCode s.crcAcc w) none :=
  answersOnly_of_exec_respond (exec_crcc w s)

/-! ## The words of CRCU (format B) -/

/-- OP 0x2 and D share no bit. -/
theorem word_crcu_toNat (d : Byte) : (Instr.crcu d).word.toNat = 0x2000 + d.toNat := by
  have hd : d.toNat < 2 ^ 13 := by omega
  rw [Instr.word, BitVec.toNat_or, BitVec.toNat_setWidth_of_le (by decide)]
  exact (Nat.two_pow_add_eq_or_of_lt hd 1).symm

/-- `CW[15:8]` of a word of CRCU is OP 0x2 and four zero bits. -/
theorem eq_word_crcu_iff {cw : Word} : cw = (Instr.crcu (BitVec.ofNat 8 cw.toNat)).word ↔ cw.toNat / 0x100 = 0x20 := by
  rw [← BitVec.toNat_inj, word_crcu_toNat, BitVec.toNat_ofNat]
  omega

theorem fetch_op_crcu {cw : Word} (hop : cw.toNat / 0x1000 = 0x2) :
    fetch [.word cw] = if cw.toNat / 0x100 = 0x20 then .command (.crcu (BitVec.ofNat 8 cw.toNat)) else .illegal := by
  simp only [← eq_word_crcu_iff]
  refine fetch_eq_ite_of_illegal (i := .crcu (BitVec.ofNat 8 cw.toNat)) rfl ?op fun hcw => ?illegal
  case op =>
    rw [word_crcu_toNat]
    omega
  case illegal =>
    refine illegalWord_of_rz hop fun hz => hcw ?_
    rw [← extractLsb'_low_byte]
    exact (word_of_formatB ((fieldOp_eq_div cw).trans hop) hz).symm

/-! ## The obligations -/

/-- Settles O16: CRCI seeds CRC_ACC alone, and its OP is of format N. -/
theorem crciSeedsTheAccumulator : Obligations.CrciSeedsTheAccumulator :=
  ⟨fun s => writesCrcOnly_of_exec (exec_crci s), fun _ hop => fetch_formatN (i := .crci) rfl rfl rfl hop⟩

/-- Settles O17: CRCU steps CRC_ACC alone, and its OP is of format B. -/
theorem crcuShiftsOneByteIn : Obligations.CrcuShiftsOneByteIn :=
  ⟨fun s d => writesCrcOnly_of_exec (exec_crcu d s), fun _ hop => fetch_op_crcu hop⟩

/-- Settles O19: CRCR answers the final CRC alone, and its OP is of format N. -/
theorem crcrReadsTheFinalCrc : Obligations.CrcrReadsTheFinalCrc :=
  ⟨answersOnly_crcr, fun _ hop => fetch_formatN (i := .crcr) rfl rfl rfl hop⟩

/-- Settles O20: `crcCode` is OK exactly on the final CRC, and the OP of CRCC is of format NW. -/
theorem crccComparesWithTheFinalCrc : Obligations.CrccComparesWithTheFinalCrc := by
  unfold Obligations.CrccComparesWithTheFinalCrc
  refine ⟨fun s w hw => ?equal, fun s w hw => ?different, fun cw w hop => ?words⟩
  case equal =>
    rw [← crcCode_eq_ok.mpr hw]
    exact answersOnly_crcc s w
  case different =>
    rw [← crcCode_eq_errCrc.mpr hw]
    exact answersOnly_crcc s w
  case words => exact fetch_formatN (i := .crcc w) rfl rfl rfl hop

end Sys2Proof.Machine
end

section
/-! The words of formats S, P, PW, PI and PQ (spec/30_encoding.md R74, R78): the word with OP, S and P is that of the command
with these fields, and a word with a reserved-zero bit set is illegal. -/

namespace Sys2Proof

theorem fetch_of_illegalWord {cw : Word} {x : Operand} (hk : x.kind = operandKind cw) (h : IllegalWord cw) :
    fetch (.word cw :: x.items) = .illegal := by
  rw [fetch_whole hk, (decode_eq_none_iff hk).mpr h]

/-! ## The legal words -/

/-- A sum whose parts share no bit is their union. -/
theorem ofNat_add_eq_or {start high low : Nat} (h : low < 2 ^ start) :
    BitVec.ofNat 16 (2 ^ start * high + low) = BitVec.ofNat 16 (2 ^ start * high) ||| BitVec.ofNat 16 low := by
  rw [Nat.two_pow_add_eq_or_of_lt h, BitVec.ofNat_or]

theorem wordSP_eq (op : Nat) (s : Speed) (p : Param) :
    wordSP op s p = BitVec.ofNat 16 (0x1000 * op) ||| s.bits ||| p.bits := by
  have hfields : BitVec.ofNat 16 (0x0800 * s.code + 0x0100 * p.code) = s.bits ||| p.bits := by
    cases s <;> cases p <;> rfl
  have hlt : 0x0800 * s.code + 0x0100 * p.code < 2 ^ 12 := by
    cases s <;> cases p <;> decide
  rw [wordSP, Nat.add_assoc, BitVec.or_assoc, ← hfields]
  exact ofNat_add_eq_or hlt

/-- The I field lies below P. -/
theorem wordSP_add_index (op : Nat) (s : Speed) (p : Param) (i : BitVec 4) :
    wordSP op s p + BitVec.ofNat 16 i.toNat = wordSP op s p ||| i.setWidth 16 := by
  have hhigh : 0x1000 * op + 0x0800 * s.code + 0x0100 * p.code = 2 ^ 4 * (0x100 * op + 0x80 * s.code + 0x10 * p.code) := by
    omega
  rw [wordSP, ← BitVec.ofNat_add, hhigh, ofNat_add_eq_or i.isLt, BitVec.ofNat_toNat]

/-- Formats P, PW and PQ: the word with OP, S and P is the command with these fields. -/
theorem fetch_wordSP {op : Nat} {s : Speed} {p : Param} {i : Instr} (hi : i.wf = true)
    (hword : i.word = BitVec.ofNat 16 (0x1000 * op) ||| s.bits ||| p.bits) :
    fetch (.word (wordSP op s p) :: i.operand.items) = .command i := by
  rw [wordSP_eq, ← hword]
  exact fetch_encode hi

/-- Format PI. -/
theorem fetch_word_tpsp (s : Speed) (p : Param) (i : BitVec 4) :
    fetch [.word (wordSP 0x9 s p + BitVec.ofNat 16 i.toNat)] = .command (.tpsp s p i) := by
  rw [wordSP_add_index, wordSP_eq]
  exact fetch_encode (i := .tpsp s p i) rfl

/-- Format S: the one field leaves two legal words. -/
theorem fetch_op_spdw {cw : Word} (hop : cw.toNat / 0x1000 = 0x5) :
    fetch [.word cw] = if cw = 0x5000#16 then .command (.spdw .standard)
      else if cw = 0x5800#16 then .command (.spdw .overdrive) else .illegal := by
  split_ifs with hstd hod
  · rw [hstd]
    exact fetch_encode (i := .spdw .standard) rfl
  · rw [hod]
    exact fetch_encode (i := .spdw .overdrive) rfl
  · have hk : Operand.none.kind = operandKind cw := by
      rw [operandKind, fieldOp_eq_div, hop]
      rfl
    refine fetch_of_illegalWord hk (illegalWord_of_rz hop fun hz => ?_)
    have hword := word_of_formatS ((fieldOp_eq_div cw).trans hop) hz
    cases hs : fieldS cw with
    | standard => exact hstd (by rw [← hword, hs]; rfl)
    | overdrive => exact hod (by rw [← hword, hs]; rfl)

/-! ## The reserved-zero bits -/

/-- The bits that a mask of `len` ones from bit `start` on selects are 0 where the mask finds none set. -/
theorem div_mod_eq_zero_of_rz {cw : Word} {start len : Nat} (h : rz cw ((BitVec.allOnes len).setWidth 16 <<< start) = true) :
    cw.toNat / 2 ^ start % 2 ^ len = 0 := by
  have hmasked : cw &&& (BitVec.allOnes len).setWidth 16 <<< start = 0#16 := by simpa [rz] using h
  have hzero : cw.extractLsb' start len = 0#len := by
    ext i hi
    rw [BitVec.getElem_extractLsb', BitVec.getElem_zero, ← Bool.not_eq_true]
    intro hone
    have hin : start + i < 16 := BitVec.lt_of_getLsbD hone
    have hselected : (cw &&& (BitVec.allOnes len).setWidth 16 <<< start).getLsbD (start + i) = true := by
      simp [hone, hi, hin]
    simp [hmasked] at hselected
  have := congrArg BitVec.toNat hzero
  simpa [BitVec.extractLsb'_toNat, Nat.shiftRight_eq_div_pow] using this

/-- A word with one of its format's reserved-zero bits set, presented with the operand of its OP, is illegal: `start` and
`len` say where R74 draws these bits. -/
theorem fetch_of_reserved_bits {cw : Word} {op : Nat} {x : Operand} (start len : Nat) (hop : cw.toNat / 0x1000 = op)
    (hk : x.kind = operandKind (BitVec.ofNat 16 (0x1000 * op)))
    (hmask : reservedZeroBits op = (BitVec.allOnes len).setWidth 16 <<< start) (hset : cw.toNat / 2 ^ start % 2 ^ len ≠ 0) :
    fetch (.word cw :: x.items) = .illegal := by
  have hlt : cw.toNat < 0x10000 := cw.isLt
  have hsame : operandKind (BitVec.ofNat 16 (0x1000 * op)) = operandKind cw := by
    apply operandKind_eq_of_op_eq
    rw [BitVec.toNat_ofNat]
    omega
  exact fetch_of_illegalWord (hk.trans hsame) (illegalWord_of_rz hop fun hz => hset (div_mod_eq_zero_of_rz (hmask ▸ hz)))

/-- Formats P, PW and PQ: the low byte of the word is reserved. -/
theorem fetch_of_low_byte {cw : Word} {op : Nat} {x : Operand} (hop : cw.toNat / 0x1000 = op)
    (hk : x.kind = operandKind (BitVec.ofNat 16 (0x1000 * op))) (hmask : reservedZeroBits op = 0x00FF#16)
    (hset : cw.toNat % 0x100 ≠ 0) : fetch (.word cw :: x.items) = .illegal :=
  fetch_of_reserved_bits 0 8 hop hk hmask (by simpa using hset)

end Sys2Proof
end

section
/-! The speed and timing-parameter commands (spec/41_timing_params.md R140 to R146): what each does to the state, and the
words of its OP. -/

namespace Sys2Proof.Machine

/-! ## What they do -/

theorem exec_spdw (sp : Speed) (s : State) : exec (.spdw sp) s = .next (s.setSpeed sp).done := rfl

theorem exec_spdr (s : State) : exec .spdr s = .next (s.respond .ok (some (.speed s.speed))) := rfl

theorem exec_tprw (sp : Speed) (p : Param) (w : Word) (s : State) :
    exec (.tprw sp p w) s = .next (s.writeTp sp p w).done := rfl

theorem exec_tpsp (sp : Speed) (p : Param) (i : BitVec 4) (s : State) :
    exec (.tpsp sp p i) s = .next (s.writeTp sp p (presetImage i)).done := rfl

theorem exec_tpsc (sp : Speed) (p : Param) (us : Micros) (s : State) :
    exec (.tpsc sp p us) s = .next (storeCustom sp p (encodeCustom p sp us) s) := rfl

/-- A command whose whole effect is a new image and the response OK. -/
theorem writesImage_of_exec {i : Instr} {s : State} {sp : Speed} {p : Param} {w : Word}
    (h : exec i s = .next (s.writeTp sp p w).done) : WritesImage i s sp p w :=
  ⟨_, h, readTp_writeTp_same s sp p w, fun _ _ => readTp_writeTp_other s w, rfl, rfl, rfl, rfl⟩

theorem writesImage_tpsc {sp : Speed} {p : Param} {us : Micros} {w : Word} (s : State) (h : encodeCustom p sp us = some w) :
    WritesImage (.tpsc sp p us) s sp p w :=
  writesImage_of_exec (by rw [exec_tpsc, h]; rfl)

theorem answersOnly_tpsc_errRange {sp : Speed} {p : Param} {us : Micros} (s : State) (h : encodeCustom p sp us = none) :
    AnswersOnly (.tpsc sp p us) s .errRange none :=
  answersOnly_of_exec_respond (by rw [exec_tpsc, h]; rfl)

/-! ## The magnitude of a custom time (R10, R130) -/

theorem roundHalfUp_of_isMagnitude {us : Micros} {m : Nat} (h : IsMagnitude us m) : roundHalfUp (us * 16) = m :=
  Int.floor_eq_iff.mpr h

/-- The image of an accepted magnitude. -/
theorem customImage_eq_ofNat {m : Nat} (h : m ≤ 0x7FFF) : customImage m = BitVec.ofNat 16 (0x8000 + m) :=
  (ofNat_add_eq_or (start := 15) (high := 1) (by omega)).symm

theorem encodeCustom_accepted {p : Param} {s : Speed} {us : Micros} {m : Nat} (h0 : 0 ≤ us) (hm : IsMagnitude us m)
    (hacc : AcceptedMagnitude p s m) : encodeCustom p s us = some (BitVec.ofNat 16 (0x8000 + m)) := by
  obtain ⟨hle, hmin, hmax⟩ := hacc
  rw [encodeCustom_eq_some, roundHalfUp_of_isMagnitude hm, Int.toNat_natCast]
  exact ⟨h0, hmin, hmax, (customImage_eq_ofNat hle).symm⟩

theorem encodeCustom_not_accepted {p : Param} {s : Speed} {us : Micros} {m : Nat} (hm : IsMagnitude us m)
    (hacc : ¬ AcceptedMagnitude p s m) : encodeCustom p s us = none := by
  refine Option.eq_none_iff_forall_ne_some.mpr fun w hw => hacc ?_
  rw [encodeCustom_eq_some, roundHalfUp_of_isMagnitude hm, Int.toNat_natCast] at hw
  obtain ⟨-, hmin, hmax, -⟩ := hw
  exact ⟨hmax.trans (customMaxMag_le p s), hmin, hmax⟩

/-! ## Decoding by the range an image lies in (R131) -/

theorem imageC_eq_false_of_lt {w : Word} (h : w.toNat < 0x8000) : imageC w = false := by
  rw [← Bool.not_eq_true, imageC_iff]
  exact not_le.mpr h

theorem imageF_of_lt {w : Word} (h : w.toNat < 0x8000) : imageF w = w.toNat := by
  rw [imageF_eq_mod, Nat.mod_eq_of_lt h]

theorem decodeImage_of_custom_range {p : Param} {s : Speed} {w : Word} (h : 0x8000 ≤ w.toNat) :
    decodeImage p s w = ((w.toNat - 0x8000 : Nat) : Rat) / 16 := by
  have hlt : w.toNat < 0x10000 := w.isLt
  have hF : imageF w = w.toNat - 0x8000 := by
    rw [imageF_eq_mod]
    omega
  rw [decodeImage_custom ((imageC_iff w).mpr h), hF]

theorem decodeImage_of_index {p : Param} {s : Speed} {w : Word} {i : Fin 16} (h : w.toNat = i.val) :
    decodeImage p s w = presetUs p s i := by
  have hlt : w.toNat < 0x8000 := by omega
  have hF : imageF w = i.val := (imageF_of_lt hlt).trans h
  rw [decodeImage_preset (imageC_eq_false_of_lt hlt) (by omega), hF, Fin.ofNat_val_eq_self]

theorem decodeImage_of_index_out_of_table {p : Param} {s : Speed} {w : Word} (h : 15 < w.toNat) (hlt : w.toNat < 0x8000) :
    decodeImage p s w = presetUs p s 6 :=
  decodeImage_outOfTable (imageC_eq_false_of_lt hlt) (by rwa [imageF_of_lt hlt])

/-- TPGT answers whatever its image decodes to. -/
theorem answersOnly_tpgt_of_decodeImage {s : State} {sp : Speed} {p : Param} {q : Micros}
    (h : decodeImage p sp (s.readTp sp p) = q) : AnswersOnly (.tpgt sp p) s .ok (some (.micros q)) :=
  h ▸ answersOnly_tpgt s sp p

/-! ## The obligations -/

/-- Settles O33: `encodeCustom` gives 0x8000 + m for an accepted magnitude m and nothing otherwise; TPSC stores the one and
answers ERR_RANGE to the other, and its OP is of format PQ. -/
theorem tpscStoresAnAcceptedCustomTime : Obligations.TpscStoresAnAcceptedCustomTime := by
  unfold Obligations.TpscStoresAnAcceptedCustomTime
  refine ⟨fun s sp p us m h0 hm hacc => ?accepted, fun s sp p us m _ hm hacc => ?outOfRange, fun s sp p us hneg => ?negative,
    fun sp p us => ?word, fun cw us hop hset => ?illegal⟩
  case accepted => exact writesImage_tpsc s (encodeCustom_accepted h0 hm hacc)
  case outOfRange => exact answersOnly_tpsc_errRange s (encodeCustom_not_accepted hm hacc)
  case negative => exact answersOnly_tpsc_errRange s (encodeCustom_negative hneg)
  case word => exact fetch_wordSP (i := .tpsc sp p us) rfl rfl
  case illegal => exact fetch_of_low_byte (x := .us us) hop rfl rfl hset

/-- Settles O35: TPGT answers the decoded image, which each of the three ranges of images gives, and its OP is of format P. -/
theorem tpgtDecodesTheImage : Obligations.TpgtDecodesTheImage := by
  unfold Obligations.TpgtDecodesTheImage
  refine ⟨fun s sp p h => ?custom, fun s sp p i h => ?preset, fun s sp p h hlt => ?outOfTable, fun sp p => ?word,
    fun cw hop hset => ?illegal⟩
  case custom => exact answersOnly_tpgt_of_decodeImage (decodeImage_of_custom_range h)
  case preset => exact answersOnly_tpgt_of_decodeImage (decodeImage_of_index h)
  case outOfTable => exact answersOnly_tpgt_of_decodeImage (decodeImage_of_index_out_of_table h hlt)
  case word => exact fetch_wordSP (i := .tpgt sp p) rfl rfl
  case illegal => exact fetch_of_low_byte (x := .none) hop rfl rfl hset

/-- Settles O28: SPDW writes SPEED alone, and its OP is of format S. -/
theorem spdwSetsTheSpeed : Obligations.SpdwSetsTheSpeed :=
  ⟨fun s sp => ⟨_, exec_spdw sp s, rfl, rfl, rfl, rfl, rfl⟩, fun _ hop => fetch_op_spdw hop⟩

/-- Settles O29: SPDR answers SPEED alone, and its OP is of format N. -/
theorem spdrReadsTheSpeed : Obligations.SpdrReadsTheSpeed :=
  ⟨fun s => answersOnly_of_exec_respond (exec_spdr s), fun _ hop => fetch_formatN (i := .spdr) rfl rfl rfl hop⟩

/-- Settles O30: TPRR answers the image as it is stored, and its OP is of format P. -/
theorem tprrReadsTheRawImage : Obligations.TprrReadsTheRawImage := by
  unfold Obligations.TprrReadsTheRawImage
  refine ⟨answersOnly_tprr, fun sp p => ?word, fun cw hop hset => ?illegal⟩
  case word => exact fetch_wordSP (i := .tprr sp p) rfl rfl
  case illegal => exact fetch_of_low_byte (x := .none) hop rfl rfl hset

/-- Settles O31: TPRW writes its operand to the image, unvalidated, and its OP is of format PW. -/
theorem tprwStoresAnyImage : Obligations.TprwStoresAnyImage := by
  unfold Obligations.TprwStoresAnyImage
  refine ⟨fun s sp p w => ?writes, fun sp p w => ?word, fun cw w hop hset => ?illegal⟩
  case writes => exact writesImage_of_exec (exec_tprw sp p w s)
  case word => exact fetch_wordSP (i := .tprw sp p w) rfl rfl
  case illegal => exact fetch_of_low_byte (x := .word w) hop rfl rfl hset

/-- Settles O32: TPSP writes its zero-extended index to the image, and its OP is of format PI. -/
theorem tpspStoresThePresetIndex : Obligations.TpspStoresThePresetIndex := by
  unfold Obligations.TpspStoresThePresetIndex
  refine ⟨fun s sp p i => ?writes, fetch_word_tpsp, fun cw hop hset => ?illegal⟩
  case writes =>
    rw [BitVec.ofNat_toNat]
    exact writesImage_of_exec (exec_tpsp sp p i s)
  case illegal => exact fetch_of_reserved_bits (x := .none) 4 4 hop rfl rfl hset

end Sys2Proof.Machine
end

section
/-! The words of formats T and TW (spec/30_encoding.md R74, R77, R78): the word with OP, S, R and E is that of the command
with these fields, and a word with a reserved-zero bit set, or with E = 0 and S = 1, is illegal. -/

namespace Sys2Proof

/-- The selections of R77 are the well-formed ones. -/
theorem selWf_iff {e : Bool} {s : Speed} : selWf e s = true ↔ LegalSelection e s := by
  simp [selWf, LegalSelection]

/-! ## The legal words -/

theorem wordSRE_eq (op : Nat) (s : Speed) (r e : Bool) :
    wordSRE op s r e = BitVec.ofNat 16 (0x1000 * op) ||| s.bits ||| bitsR r ||| bitsE e := by
  have hfields : BitVec.ofNat 16 (0x0800 * s.code + (0x0200 * r.toNat + 0x0100 * e.toNat)) =
      s.bits ||| (bitsR r ||| bitsE e) := by
    cases s <;> cases r <;> cases e <;> rfl
  have hlt : 0x0800 * s.code + (0x0200 * r.toNat + 0x0100 * e.toNat) < 2 ^ 12 := by
    cases s <;> cases r <;> cases e <;> decide
  rw [wordSRE, Nat.add_assoc, Nat.add_assoc, BitVec.or_assoc, BitVec.or_assoc, ← hfields]
  exact ofNat_add_eq_or hlt

/-- Format TW: the word with OP, S, R and E is the command with these fields. -/
theorem fetch_formatTW {op : Nat} {s : Speed} {r e : Bool} {i : Instr} (hi : i.wf = true)
    (hword : i.word = BitVec.ofNat 16 (0x1000 * op) ||| s.bits ||| bitsR r ||| bitsE e) :
    fetch (.word (wordSRE op s r e) :: i.operand.items) = .command i := by
  rw [wordSRE_eq, ← hword]
  exact fetch_encode hi

/-- Format T: as format TW, with the bit of R reserved. -/
theorem fetch_formatT {op : Nat} {s : Speed} {e : Bool} {i : Instr} (hi : i.wf = true)
    (hword : i.word = BitVec.ofNat 16 (0x1000 * op) ||| s.bits ||| bitsE e) :
    fetch (.word (wordSRE op s false e) :: i.operand.items) = .command i :=
  fetch_formatTW hi (by rw [hword, show bitsR false = 0#16 from rfl, BitVec.or_zero])

/-! ## The illegal words -/

/-- R72: the kind of operand behind a word is the one behind the word that is its OP alone. -/
theorem operandKind_of_op {cw : Word} {op : Nat} (hop : cw.toNat / 0x1000 = op) :
    operandKind cw = operandKind (BitVec.ofNat 16 (0x1000 * op)) := by
  apply operandKind_eq_of_op_eq
  rw [BitVec.toNat_ofNat]
  omega

/-- R78 (b) and (c), for the OPs whose format has the field E. -/
theorem fetch_of_illegal_selection_word {cw : Word} {op : Nat} {x : Operand} (hop : cw.toNat / 0x1000 = op) (hle : 0xC ≤ op)
    (hk : x.kind = operandKind (BitVec.ofNat 16 (0x1000 * op)))
    (hill : cw &&& reservedZeroBits op ≠ 0#16 ∨ (cw.getLsbD 8 = false ∧ cw.getLsbD 11 = true)) :
    fetch (.word cw :: x.items) = .illegal := by
  refine fetch_of_illegalWord (hk.trans (operandKind_of_op hop).symm) ?_
  rw [IllegalWord, hop]
  exact .inr (hill.imp_right fun hsel => ⟨hle, hsel⟩)

end Sys2Proof
end

section
/-! The derived-time commands (spec/42_derived_time.md R160 to R169): what each answers, what its answer depends on, and the
words of its OP. -/

namespace Sys2Proof.Machine

/-! ## What they do -/

theorem exec_bitt (e : Bool) (sp : Speed) (s : State) : exec (.bitt e sp) s = .next (answerAtSpeed e sp s.bitTime s) := rfl

theorem exec_rstt (e : Bool) (sp : Speed) (s : State) : exec (.rstt e sp) s = .next (answerAtSpeed e sp s.resetTime s) := rfl

theorem exec_bytt (e : Bool) (sp : Speed) (s : State) : exec (.bytt e sp) s = .next (answerAtSpeed e sp s.byteTime s) := rfl

theorem exec_blkt (e : Bool) (sp : Speed) (r : Bool) (n : Word) (s : State) :
    exec (.blkt e sp r n) s = .next (answerAtSpeed e sp (fun t => s.blockTime t n r) s) := rfl

/-- A command whose whole effect is to answer a time at the selected speed. -/
theorem answersOnly_of_exec_answerAtSpeed {i : Instr} {e : Bool} {sp : Speed} {time : Speed → Micros} {s : State}
    (hexec : exec i s = .next (answerAtSpeed e sp time s)) (hsel : LegalSelection e sp) :
    AnswersOnly i s .ok (some (.micros (time (s.sel e sp)))) := by
  have hlegal : legalSel e sp = true := (legalSel_eq_selWf e sp).trans (selWf_iff.mpr hsel)
  rw [answerAtSpeed_legal hlegal] at hexec
  exact answersOnly_of_exec_respond hexec

theorem answersOnly_bitt {e : Bool} {sp : Speed} (s : State) (hsel : LegalSelection e sp) :
    AnswersOnly (.bitt e sp) s .ok (some (.micros (s.bitTime (s.sel e sp)))) :=
  answersOnly_of_exec_answerAtSpeed (exec_bitt e sp s) hsel

theorem answersOnly_rstt {e : Bool} {sp : Speed} (s : State) (hsel : LegalSelection e sp) :
    AnswersOnly (.rstt e sp) s .ok (some (.micros (s.resetTime (s.sel e sp)))) :=
  answersOnly_of_exec_answerAtSpeed (exec_rstt e sp s) hsel

theorem answersOnly_bytt {e : Bool} {sp : Speed} (s : State) (hsel : LegalSelection e sp) :
    AnswersOnly (.bytt e sp) s .ok (some (.micros (s.byteTime (s.sel e sp)))) :=
  answersOnly_of_exec_answerAtSpeed (exec_bytt e sp s) hsel

theorem answersOnly_blkt {e : Bool} {sp : Speed} (s : State) (r : Bool) (n : Word) (hsel : LegalSelection e sp) :
    AnswersOnly (.blkt e sp r n) s .ok (some (.micros (s.blockTime (s.sel e sp) n r))) :=
  answersOnly_of_exec_answerAtSpeed (exec_blkt e sp r n s) hsel

/-! ## What the derived times read (R161 to R164, R169) -/

theorem sel_congr {a b : State} {e : Bool} (sp : Speed) (h : e = true ∨ a.speed = b.speed) : a.sel e sp = b.sel e sp := by
  cases e with
  | true => rfl
  | false => exact h.resolve_left Bool.false_ne_true

theorem bitTime_congr {a b : State} {t : Speed} (hlow : a.readTp t .tW0L = b.readTp t .tW0L)
    (hrec : a.readTp t .tREC = b.readTp t .tREC) : a.bitTime t = b.bitTime t :=
  congrArg₂ (· + ·) (value_congr hlow) (value_congr hrec)

theorem resetTime_congr {a b : State} {t : Speed} (hlow : a.readTp t .tRSTL = b.readTp t .tRSTL)
    (hhigh : a.readTp t .tRSTH = b.readTp t .tRSTH) : a.resetTime t = b.resetTime t :=
  congrArg₂ (· + ·) (value_congr hlow) (value_congr hhigh)

theorem byteTime_congr {a b : State} {t : Speed} (hbit : a.bitTime t = b.bitTime t) : a.byteTime t = b.byteTime t :=
  congrArg (8 * ·) hbit

theorem blockTime_congr {a b : State} {t : Speed} (n : Word) (r : Bool) (hbit : a.bitTime t = b.bitTime t)
    (hreset : a.resetTime t = b.resetTime t) : a.blockTime t n r = b.blockTime t n r := by
  rw [State.blockTime, State.blockTime, byteTime_congr hbit, hreset]

/-- The response depends on the state through the selected speed's time alone; an illegal selection is answered the same in
every state. -/
theorem answerAtSpeed_response_congr {a b : State} {e : Bool} {sp : Speed} {timeA timeB : Speed → Micros}
    (htime : timeA (a.sel e sp) = timeB (b.sel e sp)) :
    (answerAtSpeed e sp timeA a).response = (answerAtSpeed e sp timeB b).response := by
  unfold answerAtSpeed
  split_ifs
  · rw [answer_response, answer_response, htime]
  · rfl

/-! ## The obligations -/

/-- Settles O45: the two states select the same speed, where the bit times and the reset times are sums of the values of the
four parameters, and byte and block times are made from these. -/
theorem derivedTimesReadFourParametersOnly : Obligations.DerivedTimesReadFourParametersOnly := by
  unfold Obligations.DerivedTimesReadFourParametersOnly
  intro a b e sp r n hspeed himages i hi
  have hsel : a.sel e sp = b.sel e sp := sel_congr sp hspeed
  have hbit (t : Speed) : a.bitTime t = b.bitTime t :=
    bitTime_congr (himages t .tW0L (by simp)) (himages t .tREC (by simp))
  have hreset (t : Speed) : a.resetTime t = b.resetTime t :=
    resetTime_congr (himages t .tRSTL (by simp)) (himages t .tRSTH (by simp))
  rcases hi with rfl | rfl | rfl | rfl
  · exact ⟨_, _, exec_bitt e sp a, exec_bitt e sp b, answerAtSpeed_response_congr (by rw [hsel, hbit])⟩
  · exact ⟨_, _, exec_rstt e sp a, exec_rstt e sp b, answerAtSpeed_response_congr (by rw [hsel, hreset])⟩
  · exact ⟨_, _, exec_bytt e sp a, exec_bytt e sp b, answerAtSpeed_response_congr (by rw [hsel, byteTime_congr (hbit _)])⟩
  · exact ⟨_, _, exec_blkt e sp r n a, exec_blkt e sp r n b,
      answerAtSpeed_response_congr (by rw [hsel, blockTime_congr n r (hbit _) (hreset _)])⟩

/-- Settles O41: BITT answers the bit time at the selected speed, and its OP is of format T. -/
theorem bittAnswersTheBitTime : Obligations.BittAnswersTheBitTime := by
  unfold Obligations.BittAnswersTheBitTime
  refine ⟨fun s e sp t hsel ht => ?answer, fun e sp hsel => ?word, fun cw hop hill => ?illegal⟩
  case answer =>
    rw [ht]
    exact answersOnly_bitt s hsel
  case word => exact fetch_formatT (i := .bitt e sp) (selWf_iff.mpr hsel) rfl
  case illegal => exact fetch_of_illegal_selection_word (x := .none) hop (by decide) rfl hill

/-- Settles O42: RSTT answers the reset time at the selected speed, and its OP is of format T. -/
theorem rsttAnswersTheResetTime : Obligations.RsttAnswersTheResetTime := by
  unfold Obligations.RsttAnswersTheResetTime
  refine ⟨fun s e sp t hsel ht => ?answer, fun e sp hsel => ?word, fun cw hop hill => ?illegal⟩
  case answer =>
    rw [ht]
    exact answersOnly_rstt s hsel
  case word => exact fetch_formatT (i := .rstt e sp) (selWf_iff.mpr hsel) rfl
  case illegal => exact fetch_of_illegal_selection_word (x := .none) hop (by decide) rfl hill

/-- Settles O43: the byte time is eight bit times at the same selected speed, and the OP of BYTT is of format T. -/
theorem byttAnswersEightBitTimes : Obligations.ByttAnswersEightBitTimes := by
  unfold Obligations.ByttAnswersEightBitTimes
  refine ⟨fun s e sp hsel => ?answer, fun e sp hsel => ?word, fun cw hop hill => ?illegal⟩
  case answer => exact ⟨s.bitTime (s.sel e sp), answersOnly_bitt s hsel, answersOnly_bytt s hsel⟩
  case word => exact fetch_formatT (i := .bytt e sp) (selWf_iff.mpr hsel) rfl
  case illegal => exact fetch_of_illegal_selection_word (x := .none) hop (by decide) rfl hill

/-- Settles O44: the block time is `n` byte times and the reset time of R at the same selected speed, and the OP of BLKT is of
format TW. -/
theorem blktAnswersTheBlockTime : Obligations.BlktAnswersTheBlockTime := by
  unfold Obligations.BlktAnswersTheBlockTime
  refine ⟨fun s e sp r n hsel => ?answer, fun e sp r n hsel => ?word, fun cw n hop hill => ?illegal⟩
  case answer =>
    exact ⟨s.byteTime (s.sel e sp), s.resetTime (s.sel e sp), answersOnly_bytt s hsel, answersOnly_rstt s hsel,
      answersOnly_blkt s r n hsel⟩
  case word => exact fetch_formatTW (i := .blkt e sp r n) (selWf_iff.mpr hsel) rfl
  case illegal => exact fetch_of_illegal_selection_word (x := .word n) hop (by decide) rfl hill

end Sys2Proof.Machine
end

section
/-! Response codes (spec/60_exceptions.md R180 to R184): where each code other than OK comes from, and that a step answered
with one changes nothing but the port. -/

namespace Sys2Proof.Machine

/-! ## Where the codes come from (R180 to R183) -/

/-- The commands that can answer a code other than OK. -/
def ErrorSource (i : Instr) : Code → Prop
  | .ok => False
  | .errIllegal => i.wf = false
  | .errRange => ∃ sp p us, i = .tpsc sp p us
  | .errCrc => ∃ w, i = .crcc w

/-- The response in `t` is one that R180's table lets the command `i` give. -/
def Answered (i : Instr) (t : State) : Prop :=
  (∃ v, t.response = some ⟨.ok, v⟩) ∨ ∃ c, t.response = some ⟨c, none⟩ ∧ ErrorSource i c

/-- A derived-time command that is no command of the block is one whose speed selection is illegal. -/
theorem answered_answerAtSpeed {i : Instr} {e : Bool} {sp : Speed} (hwf : i.wf = selWf e sp) (time : Speed → Micros)
    (s : State) : Answered i (answerAtSpeed e sp time s) := by
  rcases answerAtSpeed_cases e sp time s with ⟨-, hanswer⟩ | ⟨hillegal, hraise⟩
  · exact .inl ⟨_, by rw [hanswer, answer_response]⟩
  · exact .inr ⟨.errIllegal, by rw [hraise, raise_response], hwf.trans (legalSel_eq_selWf e sp ▸ hillegal)⟩

/-- Only CRCC's comparison, TPSC's encoding and the speed selection of a derived-time command can fail. -/
theorem exec_answered (i : Instr) (s : State) : ∃ t, exec i s = .next t ∧ Answered i t := by
  cases i with
  | crcc w =>
    refine ⟨_, exec_crcc w s, ?_⟩
    by_cases hw : w = finalCrc s.crcAcc
    · exact .inl ⟨none, by rw [respond_response, crcCode_eq_ok.mpr hw]⟩
    · exact .inr ⟨.errCrc, by rw [respond_response, crcCode_eq_errCrc.mpr hw], w, rfl⟩
  | tpsc sp p us =>
    refine ⟨_, exec_tpsc sp p us s, ?_⟩
    rcases storeCustom_cases sp p (encodeCustom p sp us) s with ⟨w, -, hstore⟩ | ⟨-, hraise⟩
    · exact .inl ⟨none, by rw [hstore, done_response]⟩
    · exact .inr ⟨.errRange, by rw [hraise, raise_response], sp, p, us, rfl⟩
  | bitt e sp => exact ⟨_, exec_bitt e sp s, answered_answerAtSpeed rfl _ s⟩
  | rstt e sp => exact ⟨_, exec_rstt e sp s, answered_answerAtSpeed rfl _ s⟩
  | bytt e sp => exact ⟨_, exec_bytt e sp s, answered_answerAtSpeed rfl _ s⟩
  | blkt e sp r n => exact ⟨_, exec_blkt e sp r n s, answered_answerAtSpeed rfl _ s⟩
  | _ => exact ⟨_, rfl, .inl ⟨_, rfl⟩⟩

/-- Settles O49: every command answers as R180's table allows, and the table's sources are the ones asked for. -/
theorem everyCommandAnswersOneCode : Obligations.EveryCommandAnswersOneCode := by
  unfold Obligations.EveryCommandAnswersOneCode
  refine ⟨⟨rfl, rfl, rfl, rfl⟩, fun i s => ?_⟩
  obtain ⟨t, hexec, ⟨v, hok⟩ | ⟨c, herr, hsource⟩⟩ := exec_answered i s
  · exact ⟨t, _, hexec, hok, nofun, nofun, fun _ => nofun, fun hne => absurd rfl hne⟩
  · refine ⟨t, _, hexec, herr, ?range, ?crc, ?illegal, fun _ => rfl⟩
    case range =>
      rintro rfl
      exact hsource
    case crc =>
      rintro rfl
      exact hsource
    case illegal =>
      rintro hwf rfl
      exact Bool.false_ne_true (hsource.symm.trans hwf)

/-! ## A step answered with an error (R184) -/

theorem Writes.response {i : Instr} {s t : State} (h : Writes i s t) : t.response = some ⟨.ok, none⟩ := by
  rcases h with ⟨-, rfl⟩ | ⟨d, -, rfl⟩ | ⟨x, -, rfl⟩ | ⟨sp, p, w, -, rfl⟩ <;> rfl

/-- A command that answers an error does nothing but answer: one that writes answers OK. -/
theorem eq_respond_of_exec_error {i : Instr} {s t : State} {r : Response} (h : exec i s = .next t)
    (hr : t.response = some r) (herr : r.code ≠ .ok) : t = s.respond r.code r.value := by
  rcases exec_cases h with ⟨c, v, rfl⟩ | hw
  · obtain rfl : ⟨c, v⟩ = r := Option.some.inj hr
    rfl
  · obtain rfl : ⟨.ok, none⟩ = r := Option.some.inj (hw.response.symm.trans hr)
    exact absurd rfl herr

/-- A step that answers an error takes the turn and answers, and does nothing else: an idle step and a reset give no
response. -/
theorem eq_respond_of_step_error {s t : State} {r : Response} (h : step s = .next t) (hr : t.response = some r)
    (herr : r.code ≠ .ok) : t = (s.setHost s.host.tail).respond r.code r.value := by
  rcases step_next_cases h with ⟨-, rfl⟩ | ⟨turn, rest, hhost, hturn⟩
  · cases hr
  · rw [hhost, List.tail_cons]
    rcases hturn with ⟨-, rfl⟩ | ⟨more, -, rfl⟩ | ⟨i, -, hexec⟩ | ⟨-, rfl⟩
    · cases hr
    · cases hr
    · exact eq_respond_of_exec_error hexec hr herr
    · cases hr
      rfl

/-! ## No meaning reads the response (R30) -/

theorem exec_respond (i : Instr) (s : State) (c : Code) (v : Option Value) : exec i (s.respond c v) = exec i s := by
  cases i <;> rfl

theorem stepTurn_respond (f : Fetched) (s : State) (c : Code) (v : Option Value) :
    stepTurn f (s.respond c v) = stepTurn f s := by
  cases f with
  | command i => exact exec_respond i s c v
  | _ => rfl

theorem step_respond (s : State) (c : Code) (v : Option Value) : step (s.respond c v) = step s := by
  cases hhost : s.host with
  | nil =>
    rw [step_idle hhost, step_idle (s := s.respond c v) hhost]
    rfl
  | cons turn rest =>
    rw [step_turn hhost, step_turn (s := s.respond c v) hhost]
    exact stepTurn_respond (fetch turn) (s.setHost rest) c v

/-- Settles O50: an error leaves the state with its turn taken and a response, and no step reads the response. -/
theorem errorsLeaveNoTrace : Obligations.ErrorsLeaveNoTrace := by
  unfold Obligations.ErrorsLeaveNoTrace
  intro s t r hstep hr herr
  obtain rfl := eq_respond_of_step_error hstep hr herr
  exact ⟨⟨rfl, rfl, rfl⟩, rfl, step_respond _ _ _⟩

end Sys2Proof.Machine
end

section
/-! A second outstanding command, and a change of the speed (spec/70_reset_and_hazards.md R206, R208). -/

namespace Sys2Proof

/-! ## A second command before the response (R208) -/

/-- A word behind a command word and its operand is rejected before the command word is decoded, so even where that word is
illegal. -/
theorem fetch_word_behind_operand {cw : Word} {x : Operand} (hk : x.kind = operandKind cw) (cw2 : Word) (more : Turn) :
    fetch (.word cw :: x.items ++ .word cw2 :: more) = .rejected .presentedBeforeResponse := by
  simp [fetch, takeOperand_of_kind hk]

end Sys2Proof

namespace Sys2Proof.Machine

/-- Settles O11: the second word stands behind the first and its operand, and a rejected turn is refused under its name. -/
theorem secondOutstandingCommandIsRefused : Obligations.SecondOutstandingCommandIsRefused :=
  fun _ _ cw2 _ more _ hk hhost => step_rejected hhost (fetch_word_behind_operand hk cw2 more)

/-! ## A change of the speed (R206) -/

/-- With E = 0 the speed is SPEED, so the command is the one with E = 1 that names it (R77). -/
theorem answerAtSpeed_current (time : Speed → Micros) (st : State) :
    answerAtSpeed false .standard time st = answerAtSpeed true st.speed time st := by
  rw [answerAtSpeed_legal rfl, answerAtSpeed_legal rfl, sel_false, sel_true]

/-- Settles O47: SPDW makes SPEED its own S, which the commands with E = 0 select; those with E = 1 read the images alone
(O45), and SPDW writes none. -/
theorem speedChangeActsOnTheNextCommand : Obligations.SpeedChangeActsOnTheNextCommand := by
  unfold Obligations.SpeedChangeActsOnTheNextCommand
  intro s sp x r n
  have hcurrent (time : Speed → Micros) :
      answerAtSpeed false .standard time (s.setSpeed sp).done = answerAtSpeed true sp time (s.setSpeed sp).done :=
    answerAtSpeed_current time _
  refine ⟨(s.setSpeed sp).done, exec_spdw sp s, ?bitt, ?rstt, ?bytt, ?blkt, fun i hi => ?named⟩
  case bitt => rw [exec_bitt, exec_bitt, hcurrent]
  case rstt => rw [exec_rstt, exec_rstt, hcurrent]
  case bytt => rw [exec_bytt, exec_bytt, hcurrent]
  case blkt => rw [exec_blkt, exec_blkt, hcurrent]
  case named =>
    obtain ⟨u, v, hu, hv, hresponse⟩ :=
      derivedTimesReadFourParametersOnly s (s.setSpeed sp).done true x r n (.inl rfl) (fun _ _ _ => rfl) i hi
    exact ⟨u, v, hu, hv, hresponse.symm⟩

end Sys2Proof.Machine
end

section
/-! Decoding and encoding are inverse (spec/30_encoding.md R72 to R80), and what the port does with a turn that is no whole
command (R70, R71, spec/70_reset_and_hazards.md R200). -/

namespace Sys2Proof

/-- INVERSION: the turn of a command is the one that presents it. -/
theorem eq_encode_of_fetch {t : Turn} {i : Instr} (h : fetch t = .command i) : i.wf = true ∧ encode i = t := by
  obtain ⟨cw, x, rfl, -, hdecode⟩ := fetch_eq_command h
  obtain ⟨hwf, rfl, rfl⟩ := decode_eq_some hdecode
  exact ⟨hwf, rfl⟩

/-- Settles O1: the decoder reads every field of a well-formed command back. -/
theorem decodeOfEncodeIsTheCommand : Obligations.DecodeOfEncodeIsTheCommand := fun _ => fetch_encode

/-- Settles O2: the fields of a word that decodes make up the whole word, and nothing follows its operand. -/
theorem encodeOfDecodeIsTheTurn : Obligations.EncodeOfDecodeIsTheTurn := fun _ _ => eq_encode_of_fetch

/-- Settles O5: each legal word is what the encoder gives for its command, and decoding undoes encoding. -/
theorem specWordsDecode : Obligations.SpecWordsDecode := by
  unfold Obligations.SpecWordsDecode
  exact ⟨fetch_encode (i := .crcu 0x66#8) rfl, fetch_encode (i := .crcc 0x7CDE#16) rfl,
    fetch_encode (i := .spdw .overdrive) rfl,
    fetch_encode (i := .tprr .overdrive .tMSR) rfl, fetch_encode (i := .tpsp .overdrive .tREC 3#4) rfl,
    fetch_encode (i := .tpsc .overdrive .tW0L 31.5) rfl, fetch_encode (i := .bitt true .standard) rfl,
    fetch_encode (i := .blkt true .overdrive true 2#16) rfl, by decide, by decide⟩

/-! ## Turns that are no whole command -/

theorem fetch_without_operand {cw : Word} (h : operandKind cw ≠ .none) : fetch [.word cw] = .rejected .operandMissing := by
  cases hk : operandKind cw with
  | none => exact absurd hk h
  | word => simp [fetch, hk, takeOperand]
  | us => simp [fetch, hk, takeOperand]

theorem fetch_reset_behind_operand {cw : Word} {x : Operand} (hk : x.kind = operandKind cw) (more : Turn) :
    fetch (.word cw :: x.items ++ .reset :: more) = .rejected .resetDuringCommand := by
  simp [fetch, takeOperand_of_kind hk]

theorem fetch_reset_for_operand {cw : Word} (h : operandKind cw ≠ .none) (more : Turn) :
    fetch (.word cw :: .reset :: more) = .rejected .resetDuringCommand := by
  cases hk : operandKind cw with
  | none => exact absurd hk h
  | word => simp [fetch, hk, takeOperand]
  | us => simp [fetch, hk, takeOperand]

end Sys2Proof
end

section
/-! The step over any state: which turns it runs, which it refuses, and which of the registers it can change
(spec/10_state.md R24 to R28, R31; spec/60_exceptions.md R180). -/

namespace Sys2Proof.Machine

/-! ## Turns -/

/-- Settles O9: the presented turn decodes to the command. -/
theorem stepRunsThePresentedCommand : Obligations.StepRunsThePresentedCommand :=
  fun _ _ _ hwf hhost => step_command hhost (fetch_encode hwf)

/-- Settles O10: the decoder rejects the word, and the step refuses it under that name. -/
theorem commandWithoutOperandIsRefused : Obligations.CommandWithoutOperandIsRefused :=
  fun _ _ _ hk hhost => step_rejected hhost (fetch_without_operand hk)

/-- Settles O12: the fields of `resetInput`, and the two places in a command where reset is rejected. -/
theorem resetInputSetsEveryElement : Obligations.ResetInputSetsEveryElement := by
  unfold Obligations.ResetInputSetsEveryElement
  refine ⟨fun s rest hhost => ?between, fun s cw x more rest hk hhost => ?behind, fun s cw more rest hk hhost => ?inside⟩
  case between => exact ⟨_, step_reset hhost, rfl, resetInput_readTp _, rfl, rfl⟩
  case behind => exact step_rejected hhost (fetch_reset_behind_operand hk more)
  case inside => exact step_rejected hhost (fetch_reset_for_operand hk more)

/-- Settles O59: an idle step drops the response and nothing else. -/
theorem idleBlockKeepsItsState : Obligations.IdleBlockKeepsItsState :=
  fun _ hhost => ⟨_, step_idle hhost, ⟨rfl, rfl, rfl⟩, hhost⟩

/-- Settles O14: what the decoder makes of a turn decides, and every command answers a next state. -/
theorem onlyMeaninglessTurnsAreRefused : Obligations.OnlyMeaninglessTurnsAreRefused := by
  unfold Obligations.OnlyMeaninglessTurnsAreRefused
  intro s
  cases hhost : s.host with
  | nil => exact .inl ⟨_, step_idle hhost⟩
  | cons turn rest =>
    rw [step_turn hhost]
    cases hfetch : fetch turn with
    | idle => exact .inl ⟨_, rfl⟩
    | reset more => exact .inl ⟨_, rfl⟩
    | command i => exact .inl (exec_next i (s.setHost rest))
    | illegal => exact .inl ⟨_, rfl⟩
    | rejected r => exact .inr ⟨turn, rest, r, rfl, hfetch, rfl⟩

/-! ## Which step changes a register -/

/-- INVERSION: a step keeps the registers, or the host asserted reset, or it presented a command. -/
theorem step_register_cases {s t : State} (h : step s = .next t) :
    SameRegisters s t ∨
    (∃ more rest, s.host = (.reset :: more) :: rest ∧ t = (s.setHost (turnsAfterReset more rest)).resetInput) ∨
    ∃ i rest, s.host = encode i :: rest ∧ exec i (s.setHost rest) = .next t := by
  rcases step_next_cases h with
    ⟨-, rfl⟩ | ⟨turn, rest, hhost, ⟨-, rfl⟩ | ⟨more, hreset, rfl⟩ | ⟨i, hcommand, hexec⟩ | ⟨-, rfl⟩⟩
  · exact .inl ⟨rfl, rfl, rfl⟩
  · exact .inl ⟨rfl, rfl, rfl⟩
  · exact .inr (.inl ⟨more, rest, fetch_eq_reset hreset ▸ hhost, rfl⟩)
  · exact .inr (.inr ⟨i, rest, (eq_encode_of_fetch hcommand).2 ▸ hhost, hexec⟩)
  · exact .inl ⟨rfl, rfl, rfl⟩

theorem SameRegisters.readTp {a b : State} (h : SameRegisters a b) (sp : Speed) (p : Param) :
    b.readTp sp p = a.readTp sp p := by
  obtain ⟨-, htp, -⟩ := h
  rw [State.readTp, State.readTp, htp]

theorem exec_changes_speed {i : Instr} {s t : State} (h : exec i s = .next t) (hne : t.speed ≠ s.speed) :
    i = .spdw t.speed := by
  rcases exec_cases h with ⟨c, v, rfl⟩ | ⟨-, rfl⟩ | ⟨d, -, rfl⟩ | ⟨x, rfl, rfl⟩ | ⟨sp, p, w, -, rfl⟩
  case inr.inr.inr.inl => rfl
  all_goals exact absurd rfl hne

theorem exec_changes_crcAcc {i : Instr} {s t : State} (h : exec i s = .next t) (hne : t.crcAcc ≠ s.crcAcc) :
    i = .crci ∨ ∃ d, i = .crcu d := by
  rcases exec_cases h with ⟨c, v, rfl⟩ | ⟨rfl, -⟩ | ⟨d, rfl, -⟩ | ⟨x, -, rfl⟩ | ⟨sp, p, w, -, rfl⟩
  case inr.inl => exact .inl rfl
  case inr.inr.inl => exact .inr ⟨d, rfl⟩
  all_goals exact absurd rfl hne

/-- Settles O51: of the three kinds of step, one keeps SPEED, one is reset, and a command that changes it is SPDW. -/
theorem onlySpdwAndResetWriteSpeed : Obligations.OnlySpdwAndResetWriteSpeed := by
  unfold Obligations.OnlySpdwAndResetWriteSpeed
  intro s t hstep hne
  rcases step_register_cases hstep with ⟨hspeed, -, -⟩ | ⟨more, rest, hhost, -⟩ | ⟨i, rest, hhost, hexec⟩
  · exact absurd hspeed.symm hne
  · exact .inr ⟨more, rest, hhost⟩
  · rw [exec_changes_speed hexec hne] at hhost
    exact .inl ⟨rest, hhost⟩

/-- Settles O52: as O51, with the commands that change CRC_ACC. -/
theorem onlyCrciCrcuAndResetWriteCrcAcc : Obligations.OnlyCrciCrcuAndResetWriteCrcAcc := by
  unfold Obligations.OnlyCrciCrcuAndResetWriteCrcAcc
  intro s t hstep hne
  rcases step_register_cases hstep with ⟨-, -, hcrc⟩ | ⟨more, rest, hhost, -⟩ | ⟨i, rest, hhost, hexec⟩
  · exact absurd hcrc.symm hne
  · exact .inr (.inr ⟨more, rest, hhost⟩)
  · rcases exec_changes_crcAcc hexec hne with rfl | ⟨d, rfl⟩
    · exact .inl ⟨rest, hhost⟩
    · exact .inr (.inl ⟨d, rest, hhost⟩)

/-- Settles O53: as O51, with the commands that change the image. -/
theorem onlySettersAndResetWriteAnImage : Obligations.OnlySettersAndResetWriteAnImage := by
  unfold Obligations.OnlySettersAndResetWriteAnImage
  intro s t sp p hstep hne
  rcases step_register_cases hstep with hsame | ⟨more, rest, hhost, -⟩ | ⟨i, rest, hhost, hexec⟩
  · exact absurd (hsame.readTp sp p) hne
  · exact .inr (.inr (.inr ⟨more, rest, hhost⟩))
  · rcases exec_changes_readTp hexec hne with ⟨w, rfl⟩ | ⟨n, rfl⟩ | ⟨us, rfl⟩
    · exact .inl ⟨w, rest, hhost⟩
    · exact .inr (.inl ⟨n, rest, hhost⟩)
    · exact .inr (.inr (.inl ⟨us, rest, hhost⟩))

end Sys2Proof.Machine
end

section
/-! The two invariants: responses are sound (spec/60_exceptions.md R180; spec/00_scope.md R12), and without TPRW every image
is one a validating setter stores (spec/10_state.md R28). -/

namespace Sys2Proof.Machine

/-! ## Sound responses -/

theorem sound_no_value (c : Code) : Response.Sound ⟨c, none⟩ := ⟨fun _ => rfl, nofun⟩

theorem sound_word (w : Word) : Response.Sound ⟨.ok, some (.word w)⟩ := ⟨fun h => absurd rfl h, nofun⟩

theorem sound_speed (sp : Speed) : Response.Sound ⟨.ok, some (.speed sp)⟩ := ⟨fun h => absurd rfl h, nofun⟩

theorem sound_micros {q : Micros} (h : 0 ≤ q) : Response.Sound ⟨.ok, some (.micros q)⟩ := by
  refine ⟨fun hne => absurd rfl hne, fun q' hq => ?_⟩
  cases hq
  exact h

theorem inv_of_response_none {s : State} (h : s.response = none) : s.Inv := by
  intro r hr
  rw [h] at hr
  cases hr

theorem inv_of_response {s : State} {r : Response} (h : s.response = some r) (hr : r.Sound) : s.Inv := by
  intro r' hr'
  rw [h] at hr'
  cases hr'
  exact hr

theorem inv_answerAtSpeed (e : Bool) (sp : Speed) {time : Speed → Micros} (s : State) (h : ∀ t, 0 ≤ time t) :
    (answerAtSpeed e sp time s).Inv := by
  rcases answerAtSpeed_cases e sp time s with ⟨-, hanswer⟩ | ⟨-, hraise⟩
  · rw [hanswer]
    exact inv_of_response rfl (sound_micros (h _))
  · rw [hraise]
    exact inv_of_response rfl (sound_no_value _)

theorem inv_storeCustom (sp : Speed) (p : Param) (r : Option Word) (s : State) : (storeCustom sp p r s).Inv := by
  cases r with
  | none => exact inv_of_response rfl (sound_no_value _)
  | some w => exact inv_of_response rfl (sound_no_value _)

/-- Every command answers soundly: a value is a word, a speed, or a time made of decoded images. -/
theorem exec_inv {i : Instr} {s t : State} (h : exec i s = .next t) : t.Inv := by
  cases i <;> cases h
  case crcr => exact inv_of_response rfl (sound_word _)
  case spdr => exact inv_of_response rfl (sound_speed _)
  case tprr => exact inv_of_response rfl (sound_word _)
  case tpgt sp p => exact inv_of_response rfl (sound_micros (value_nonneg s p sp))
  case tpsc sp p us => exact inv_storeCustom sp p _ s
  case bitt e sp => exact inv_answerAtSpeed e sp s (bitTime_nonneg s)
  case rstt e sp => exact inv_answerAtSpeed e sp s (resetTime_nonneg s)
  case bytt e sp => exact inv_answerAtSpeed e sp s (byteTime_nonneg s)
  case blkt e sp r n => exact inv_answerAtSpeed e sp s fun t => blockTime_nonneg s t n r
  all_goals exact inv_of_response rfl (sound_no_value _)

/-- Settles O55: no response is held. -/
theorem resetIsSound : Obligations.ResetIsSound := inv_of_response_none rfl

/-- Settles O56: a step gives no response, the response of a command, or ERR_ILLEGAL without a value. -/
theorem stepKeepsResponsesSound : Obligations.StepKeepsResponsesSound := by
  unfold Obligations.StepKeepsResponsesSound
  intro s t _ hstep
  rcases step_next_cases hstep with
    ⟨-, rfl⟩ | ⟨turn, rest, -, ⟨-, rfl⟩ | ⟨more, -, rfl⟩ | ⟨i, -, hexec⟩ | ⟨-, rfl⟩⟩
  · exact inv_of_response_none rfl
  · exact inv_of_response_none rfl
  · exact inv_of_response_none rfl
  · exact exec_inv hexec
  · exact inv_of_response rfl (sound_no_value _)

/-! ## Images of the validating setters -/

theorem setterImage_presetImage (p : Param) (s : Speed) (n : BitVec 4) : SetterImage p s (presetImage n) := by
  refine .inl ⟨imageC_presetImage n, ?_⟩
  rw [imageF_presetImage]
  exact Nat.le_of_lt_succ n.isLt

theorem setterImage_encodeCustom {p : Param} {s : Speed} {us : Micros} {w : Word} (h : encodeCustom p s us = some w) :
    SetterImage p s w := by
  obtain ⟨-, hmin, hmax, rfl⟩ := encodeCustom_eq_some.mp h
  have hle := hmax.trans (customMaxMag_le p s)
  refine .inr ⟨imageC_customImage hle, ?_⟩
  rw [imageF_customImage hle]
  exact ⟨hmin, hmax⟩

/-- The reset image is a preset index. -/
theorem setterImage_resetImage (p : Param) (s : Speed) : SetterImage p s 0x0006#16 := setterImage_presetImage p s 6#4

theorem setterImages_writeTp {s : State} {sp : Speed} {p : Param} {w : Word} (h : s.SetterImages) (hw : SetterImage p sp w) :
    (s.writeTp sp p w).SetterImages := by
  intro sp' p'
  rw [readTp_writeTp]
  split_ifs with hsame
  · obtain ⟨rfl, rfl⟩ := hsame
    exact hw
  · exact h sp' p'

/-- A command that is no TPRW stores an image of a validating setter, or none. -/
theorem exec_keeps_setterImages {i : Instr} {s t : State} (h : exec i s = .next t) (hs : s.SetterImages)
    (hno : ∀ sp p w, i ≠ .tprw sp p w) : t.SetterImages := by
  rcases exec_cases h with ⟨c, v, rfl⟩ | ⟨-, rfl⟩ | ⟨d, -, rfl⟩ | ⟨x, -, rfl⟩ | ⟨sp, p, w, hi, rfl⟩
  case inr.inr.inr.inr =>
    have hw : SetterImage p sp w := by
      rcases hi with hi | ⟨n, -, rfl⟩ | ⟨us, -, hencode⟩
      · exact absurd hi (hno sp p w)
      · exact setterImage_presetImage p sp n
      · exact setterImage_encodeCustom hencode
    exact setterImages_writeTp hs hw
  all_goals exact hs

/-- Settles O57: reset stores a preset index, and only TPRW stores an image that no validating setter would. -/
theorem imagesStayInRangeWithoutTprw : Obligations.ImagesStayInRangeWithoutTprw := by
  unfold Obligations.ImagesStayInRangeWithoutTprw
  refine ⟨fun sp p => ?reset, fun s t hs hno hstep => ?step⟩
  case reset =>
    rw [readTp_reset]
    exact setterImage_resetImage p sp
  case step =>
    rcases step_register_cases hstep with hsame | ⟨more, rest, -, rfl⟩ | ⟨i, rest, hhost, hexec⟩
    · intro sp p
      rw [hsame.readTp]
      exact hs sp p
    · intro sp p
      rw [resetInput_readTp]
      exact setterImage_resetImage p sp
    · refine exec_keeps_setterImages hexec hs fun sp p w hi => hno sp p w rest ?_
      rw [hhost, hi]

end Sys2Proof.Machine
end

section
/-! The CRC as a function (spec/40_crc16.md R101, R105 to R109). Two facts carry it: the step is linear over GF(2), and a
byte equal to the accumulator's low byte shifts it out (`crcStep_low_byte`). -/

namespace Sys2Proof.Machine

/-- The loop of R101 after `n` rounds, as a recurrence. -/
theorem foldl_crcBit_range {acc : Word} {b : Byte} {a : Nat → Word} (h0 : a 0 = acc)
    (hround : ∀ i, i < 8 → a (i + 1) = crcBit (a i) (b.getLsbD i)) :
    ∀ n, n ≤ 8 → (List.range n).foldl (fun x i => crcBit x (b.getLsbD i)) acc = a n := by
  intro n hn
  induction n with
  | zero => exact h0.symm
  | succ n ih =>
    rw [List.range_succ, List.foldl_append, ih (Nat.le_of_succ_le hn)]
    exact (hround n hn).symm

/-- Settles O18: the recurrence asked for is that of `crcBit`. -/
theorem crcStepIsTheBitSerialLoop : Obligations.CrcStepIsTheBitSerialLoop :=
  fun _ _ _ h0 hround => foldl_crcBit_range h0 hround 8 (le_refl 8)

/-! ## Linearity (R107) -/

/-- A round is a shift, and the constant where the accumulator's low bit and the input bit differ. -/
theorem crcBit_eq_xor (acc : Word) (b : Bool) :
    crcBit acc b = acc >>> 1 ^^^ if acc.getLsbD 0 ^^ b then 0xA001#16 else 0#16 := by
  unfold crcBit
  split
  · rfl
  · exact BitVec.xor_zero.symm

theorem ite_xor_zero (x y : Bool) (c : Word) :
    (if x ^^ y then c else 0#16) = (if x then c else 0#16) ^^^ (if y then c else 0#16) := by
  cases x <;> cases y <;> simp

theorem crcBit_xor (a1 a2 : Word) (b1 b2 : Bool) : crcBit (a1 ^^^ a2) (b1 ^^ b2) = crcBit a1 b1 ^^^ crcBit a2 b2 := by
  have hbit : ((a1 ^^^ a2).getLsbD 0 ^^ (b1 ^^ b2)) = ((a1.getLsbD 0 ^^ b1) ^^ (a2.getLsbD 0 ^^ b2)) := by
    rw [BitVec.getLsbD_xor, Bool.xor_assoc, Bool.xor_assoc, Bool.xor_left_comm b1]
  rw [crcBit_eq_xor, crcBit_eq_xor, crcBit_eq_xor, hbit, ite_xor_zero, BitVec.ushiftRight_xor_distrib]
  ac_rfl

theorem crcStep_xor (a1 a2 : Word) (b1 b2 : Byte) : crcStep (a1 ^^^ a2) (b1 ^^^ b2) = crcStep a1 b1 ^^^ crcStep a2 b2 := by
  simp only [crcStep_eq, BitVec.getLsbD_xor, crcBit_xor]

theorem acc16_append (xs ys : List Byte) : acc16 (xs ++ ys) = ys.foldl crcStep (acc16 xs) := List.foldl_append

theorem acc16_replicate_zero (k : Nat) : acc16 (List.replicate k 0x00#8) = 0x0000#16 := by
  induction k with
  | zero => rfl
  | succ k ih => exact ih

/-- Settles O22: zero bytes keep the seed, since the step from 0 by 0 is 0. -/
theorem crcIsLinearAndBlindToLeadingZeros : Obligations.CrcIsLinearAndBlindToLeadingZeros := by
  unfold Obligations.CrcIsLinearAndBlindToLeadingZeros
  refine ⟨crcStep_xor, fun k => ?zeros, fun k bs => ?leading⟩
  case zeros =>
    rw [crc16, acc16_replicate_zero]
    rfl
  case leading =>
    rw [crc16, acc16_append, acc16_replicate_zero]
    rfl

/-! ## The byte-wise form (R106) -/

/-- A round whose input bit is the accumulator's own low bit only shifts. -/
theorem crcBit_ushiftRight (acc : Word) (i : Nat) : crcBit (acc >>> i) (acc.getLsbD i) = acc >>> (i + 1) := by
  simp [crcBit, BitVec.shiftRight_add]

/-- A byte equal to the accumulator's low byte shifts it out. -/
theorem crcStep_low_byte (acc : Word) : crcStep acc (acc.setWidth 8) = acc >>> 8 := by
  have hround (i : Nat) (h : i < 8) : acc >>> (i + 1) = crcBit (acc >>> i) ((acc.setWidth 8).getLsbD i) := by
    rw [BitVec.getLsbD_setWidth, decide_eq_true h, Bool.true_and, crcBit_ushiftRight]
  exact foldl_crcBit_range (a := (acc >>> ·)) (BitVec.ushiftRight_zero acc) hround 8 (le_refl 8)

/-- Settles O21: split the byte into the accumulator's low byte, which shifts out, and the rest, which meets 0. -/
theorem crcStepHasTheByteWiseForm : Obligations.CrcStepHasTheByteWiseForm := by
  unfold Obligations.CrcStepHasTheByteWiseForm
  refine ⟨fun acc b => ?form, by decide⟩
  have hindex : BitVec.ofNat 8 (acc ^^^ b.setWidth 16).toNat = acc.setWidth 8 ^^^ b := by
    rw [BitVec.ofNat_toNat, BitVec.setWidth_xor, BitVec.setWidth_setWidth_of_le b (by decide), BitVec.setWidth_eq]
  calc crcStep acc b = crcStep (acc ^^^ 0#16) (acc.setWidth 8 ^^^ (acc.setWidth 8 ^^^ b)) := by
        rw [BitVec.xor_zero, ← BitVec.xor_assoc, BitVec.xor_self, BitVec.zero_xor]
    _ = acc >>> 8 ^^^ crcStep 0#16 (BitVec.ofNat 8 (acc ^^^ b.setWidth 16).toNat) := by
        rw [crcStep_xor, crcStep_low_byte, hindex]

/-! ## The step is injective (R108) -/

/-- The constant sets bit 15, which the shift clears; so a round from a nonzero accumulator is nonzero. -/
theorem crcBit_false_eq_zero_iff {acc : Word} : crcBit acc false = 0#16 ↔ acc = 0#16 := by
  refine ⟨fun h => ?_, fun h => by rw [h]; rfl⟩
  have hlt : acc.toNat < 0x10000 := acc.isLt
  rw [crcBit, Bool.xor_false, BitVec.getLsbD, Nat.testBit_zero] at h
  split_ifs at h with hodd
  · have hhalf := congrArg BitVec.toNat (BitVec.xor_eq_zero_iff.mp h)
    rw [BitVec.toNat_ushiftRight, Nat.shiftRight_one, BitVec.toNat_ofNat] at hhalf
    omega
  · have hhalf := congrArg BitVec.toNat h
    rw [BitVec.toNat_ushiftRight, Nat.shiftRight_one, BitVec.toNat_ofNat] at hhalf
    rw [decide_eq_true_eq] at hodd
    apply BitVec.eq_of_toNat_eq
    rw [BitVec.toNat_ofNat]
    omega

theorem crcStep_zero_byte_eq_zero_iff {acc : Word} : crcStep acc 0#8 = 0#16 ↔ acc = 0#16 := by
  simp only [crcStep_eq, BitVec.getLsbD_zero, crcBit_false_eq_zero_iff]

theorem crcStep_acc_injective {a a' : Word} {b : Byte} (h : crcStep a b = crcStep a' b) : a = a' := by
  rw [← BitVec.xor_eq_zero_iff, ← crcStep_zero_byte_eq_zero_iff, ← BitVec.xor_self (x := b), crcStep_xor, h,
    BitVec.xor_self]

theorem foldl_crcStep_injective {a a' : Word} {bs : List Byte} (h : bs.foldl crcStep a = bs.foldl crcStep a') : a = a' := by
  induction bs generalizing a a' with
  | nil => exact h
  | cons b bs ih => exact crcStep_acc_injective (ih h)

/-- Both 0 and the byte itself as the accumulator step to 0. -/
theorem eq_zero_of_crcStep_zero {b : Byte} (h : crcStep 0#16 b = 0#16) : b = 0#8 := by
  have hlow : (b.setWidth 16).setWidth 8 = b := by rw [BitVec.setWidth_setWidth_of_le b (by decide), BitVec.setWidth_eq]
  have hself : crcStep (b.setWidth 16) b = 0#16 := by
    have hshift := crcStep_low_byte (b.setWidth 16)
    rw [hlow] at hshift
    rw [hshift]
    have hlt : b.toNat < 0x100 := b.isLt
    apply BitVec.eq_of_toNat_eq
    rw [BitVec.toNat_ushiftRight, BitVec.toNat_setWidth_of_le (by decide), Nat.shiftRight_eq_div_pow, BitVec.toNat_ofNat]
    omega
  rw [← hlow, ← crcStep_acc_injective (h.trans hself.symm)]
  rfl

theorem crcStep_byte_injective {acc : Word} {b b' : Byte} (h : crcStep acc b = crcStep acc b') : b = b' := by
  rw [← BitVec.xor_eq_zero_iff]
  apply eq_zero_of_crcStep_zero
  calc crcStep 0#16 (b ^^^ b') = crcStep acc b ^^^ crcStep acc b' := by rw [← crcStep_xor, BitVec.xor_self]
    _ = 0#16 := by rw [h, BitVec.xor_self]

theorem finalCrc_injective : Function.Injective finalCrc := Function.LeftInverse.injective finalCrc_finalCrc

/-- Settles O23: the flipped byte gives another accumulator, and the bytes behind it keep the two apart. -/
theorem singleBitFlipChangesTheCrc : Obligations.SingleBitFlipChangesTheCrc := by
  unfold Obligations.SingleBitFlipChangesTheCrc
  intro pre post b j h
  have hacc : acc16 (pre ++ (b ^^^ (1#8 <<< j.val)) :: post) = acc16 (pre ++ b :: post) := finalCrc_injective h
  rw [acc16_append, acc16_append, List.foldl_cons, List.foldl_cons] at hacc
  have hbyte : b ^^^ (1#8 <<< j.val) = b ^^^ 0#8 := by
    rw [BitVec.xor_zero]
    exact crcStep_byte_injective (foldl_crcStep_injective hacc)
  have hnonzero : ∀ j : Fin 8, 1#8 <<< j.val ≠ 0#8 := by decide
  exact hnonzero j ((BitVec.xor_right_inj b).mp hbyte)

/-! ## The residue (R109) -/

/-- The accumulator's own two bytes shift all of it out. -/
theorem crcStep_both_bytes (acc : Word) : crcStep (crcStep acc (acc.extractLsb' 0 8)) (acc.extractLsb' 8 8) = 0#16 := by
  have hlow : acc.extractLsb' 0 8 = acc.setWidth 8 := (BitVec.setWidth_eq_extractLsb' (by decide)).symm
  have hhigh : acc.extractLsb' 8 8 = (acc >>> 8).setWidth 8 := rfl
  rw [hlow, crcStep_low_byte, hhigh, crcStep_low_byte, ← BitVec.shiftRight_add]
  exact BitVec.ushiftRight_eq_zero (le_refl 16)

theorem crcStep_ones : crcStep 0#16 0xFF#8 = 0x4040#16 := by decide

theorem crcStep_ones_twice : crcStep (crcStep 0#16 0xFF#8) 0xFF#8 = 0xB001#16 := by
  rw [crcStep_ones]
  decide

/-- Settles O24: the CRC is the accumulator XOR 0xFFFF, so by linearity the residue is what the bytes 0xFF, 0xFF step 0 to. -/
theorem appendedCrcGivesTheResidue : Obligations.AppendedCrcGivesTheResidue := by
  unfold Obligations.AppendedCrcGivesTheResidue
  intro bs
  have hresidue : acc16 (bs ++ ser16 (crc16 bs)) = 0xB001#16 := by
    rw [acc16_append]
    calc crcStep (crcStep (acc16 bs) ((acc16 bs ^^^ 0xFFFF#16).extractLsb' 0 8)) ((acc16 bs ^^^ 0xFFFF#16).extractLsb' 8 8)
        = crcStep (crcStep (acc16 bs ^^^ 0#16) ((acc16 bs).extractLsb' 0 8 ^^^ 0xFF#8))
            ((acc16 bs).extractLsb' 8 8 ^^^ 0xFF#8) := by
          rw [BitVec.extractLsb'_xor, BitVec.extractLsb'_xor, BitVec.xor_zero]
          rfl
      _ = 0#16 ^^^ crcStep (crcStep 0#16 0xFF#8) 0xFF#8 := by rw [crcStep_xor, crcStep_xor, crcStep_both_bytes]
      _ = 0xB001#16 := by rw [crcStep_ones_twice, BitVec.zero_xor]
  refine ⟨hresidue, ?_⟩
  rw [crc16, hresidue]
  rfl

end Sys2Proof.Machine
end

section
/-! The CRC commands in sequence (spec/40_crc16.md R105, R110, R111; spec/70_reset_and_hazards.md R204): a CRCU per byte
folds the bytes into CRC_ACC, whatever is presented behind them. -/

namespace Sys2Proof.Machine

/-- A CRCU per byte, and then the commands `is`: the run of `is` from a state where CRC_ACC has taken the bytes. -/
theorem runsTo_crcus (bs : List Byte) (s : State) :
    ∃ u : State, u.crcAcc = bs.foldl crcStep s.crcAcc ∧ u.speed = s.speed ∧ u.tp = s.tp ∧
      ∀ (is : List Instr) (k : Nat) (t : State),
        RunsTo (bs.length + k) (s.present (bs.map .crcu ++ is)) t ↔ RunsTo k (u.present is) t := by
  induction bs generalizing s with
  | nil => exact ⟨s, rfl, rfl, rfl, fun is k t => by rw [List.length_nil, Nat.zero_add]; rfl⟩
  | cons b bs ih =>
    obtain ⟨u, hcrc, hspeed, htp, hrun⟩ := ih (s.setCrc (crcStep s.crcAcc b)).done
    refine ⟨u, hcrc, hspeed, htp, fun is k t => ?_⟩
    rw [List.length_cons, Nat.succ_add, ← hrun]
    exact runsTo_present_cons (fetch_encode rfl) (exec_crcu b s)

/-- Settles O25: CRCI, the bytes from the seed, CRCR. -/
theorem crc16ProgramAnswersTheCrc : Obligations.Crc16ProgramAnswersTheCrc := by
  unfold Obligations.Crc16ProgramAnswersTheCrc
  intro bs s
  obtain ⟨u, hcrc, hspeed, htp, hrun⟩ := runsTo_crcus bs (s.setCrc 0x0000#16).done
  refine ⟨(u.present []).respond .ok (some (.word (finalCrc u.crcAcc))), ?run, hcrc, ?answer, hspeed, htp, rfl⟩
  case run =>
    refine (runsTo_present_cons (fetch_encode rfl) (exec_crci s)).mpr ((hrun [.crcr] 1 _).mpr ?_)
    exact (runsTo_present_cons (fetch_encode rfl) (exec_crcr u)).mpr rfl
  case answer =>
    rw [respond_response, hcrc]
    rfl

theorem crcCode_eq_ite (acc w : Word) : crcCode acc w = if w = finalCrc acc then .ok else .errCrc := by
  simp [crcCode, crcMatches]

/-- CRCV (R81): CRCC compares with the CRC of the bytes before it. -/
theorem crcvProgram_answers (bs : List Byte) (w : Word) (s : State) :
    ∃ t, RunsTo (bs.length + 2) (s.present (crcvProgram bs w)) t ∧
      t.response = some ⟨if w = crc16 bs then .ok else .errCrc, none⟩ := by
  obtain ⟨u, hcrc, -, -, hrun⟩ := runsTo_crcus bs (s.setCrc 0x0000#16).done
  refine ⟨(u.present []).respond (crcCode u.crcAcc w) none, ?run, ?answer⟩
  case run =>
    refine (runsTo_present_cons (fetch_encode rfl) (exec_crci s)).mpr ((hrun [.crcc w] 1 _).mpr ?_)
    exact (runsTo_present_cons (fetch_encode rfl) (exec_crcc w u)).mpr rfl
  case answer =>
    rw [respond_response, hcrc, crcCode_eq_ite]
    rfl

/-- Settles O26: both checks are CRCV, over the bytes sent or over the length byte and the result bytes. -/
theorem crcChecksAcceptExactlyTheCrc : Obligations.CrcChecksAcceptExactlyTheCrc :=
  fun len bs w s => ⟨crcvProgram_answers bs w s, crcvProgram_answers (len :: bs) w s⟩

/-- Settles O27: CRCR and CRCC only answer, so the bytes of `ys` are folded into the accumulator of `xs`. -/
theorem crcContinuesWithoutCrci : Obligations.CrcContinuesWithoutCrci := by
  unfold Obligations.CrcContinuesWithoutCrci
  intro xs ys w s hacc
  obtain ⟨u, hcrc, -, -, hrun⟩ :=
    runsTo_crcus ys ((s.respond .ok (some (.word (finalCrc s.crcAcc)))).respond (crcCode s.crcAcc w) none)
  rw [respond_crcAcc, respond_crcAcc, hacc, ← acc16_append] at hcrc
  refine ⟨(u.present []).respond .ok (some (.word (finalCrc u.crcAcc))), ?run, ?answer⟩
  case run =>
    refine (runsTo_present_cons (fetch_encode rfl) (exec_crcr s)).mpr ?_
    refine (runsTo_present_cons (fetch_encode rfl) (exec_crcc w _)).mpr ((hrun [.crcr] 1 _).mpr ?_)
    exact (runsTo_present_cons (fetch_encode rfl) (exec_crcr u)).mpr rfl
  case answer =>
    rw [respond_response, hcrc]
    rfl

end Sys2Proof.Machine
end

section
/-! Custom and preset times as TPGT and the derived-time commands answer them (spec/41_timing_params.md R133, R134, R145;
spec/42_derived_time.md R170, R172). -/

namespace Sys2Proof.Machine

/-! ## The range point of tW0L at Overdrive (R7) -/

theorem acceptedMagnitude_tW0L_overdrive : AcceptedMagnitude .tW0L .overdrive 504 :=
  ⟨by decide, customMinMag_le_customMaxMag .tW0L .overdrive, le_refl 504⟩

/-- A time whose rounded magnitude lies above the maximum is refused. -/
theorem encodeCustom_above_max {p : Param} {s : Speed} {us : Micros} (h : (customMaxMag p s : Rat) + 1 ≤ us * 16 + 1 / 2) :
    encodeCustom p s us = none := by
  refine Option.eq_none_iff_forall_ne_some.mpr fun w hw => ?_
  obtain ⟨-, -, hmax, -⟩ := encodeCustom_eq_some.mp hw
  have hround : (customMaxMag p s : Int) + 1 ≤ roundHalfUp (us * 16) := Int.le_floor.mpr (by exact_mod_cast h)
  omega

/-- Settles O34: 504 is the maximum and so accepted, and from 505 on the magnitude is above it. -/
theorem tpscRangeOfTW0LOverdrive : Obligations.TpscRangeOfTW0LOverdrive := by
  unfold Obligations.TpscRangeOfTW0LOverdrive
  refine ⟨fun s us hlow hhigh => ?stored, fun s us hlow => ?refused⟩
  case stored =>
    have h0 : 0 ≤ us := by linarith
    have hmagnitude : IsMagnitude us 504 := ⟨by exact_mod_cast hlow, by norm_num; linarith⟩
    exact writesImage_tpsc s (encodeCustom_accepted h0 hmagnitude acceptedMagnitude_tW0L_overdrive)
  case refused =>
    refine answersOnly_tpsc_errRange s (encodeCustom_above_max ?_)
    rw [customMaxMag_tW0L_overdrive]
    norm_num at hlow ⊢
    exact hlow

/-! ## Round trips (R133, R134) -/

/-- An encoded time decodes to its magnitude in sixteenths. -/
theorem decodeImage_encodeCustom {p : Param} {s : Speed} {us : Micros} {w : Word} (h : encodeCustom p s us = some w) :
    decodeImage p s w = (roundHalfUp (us * 16) : Rat) / 16 := by
  obtain ⟨h0, -, hmax, rfl⟩ := encodeCustom_eq_some.mp h
  have hnonneg : 0 ≤ roundHalfUp (us * 16) := roundHalfUp_nonneg (by positivity)
  have hcast : ((roundHalfUp (us * 16)).toNat : Rat) = (roundHalfUp (us * 16) : Rat) := by
    exact_mod_cast Int.toNat_of_nonneg hnonneg
  rw [decodeImage_customImage (hmax.trans (customMaxMag_le p s)), hcast]

theorem abs_round_sixteenths_sub_le (us : Micros) : |(roundHalfUp (us * 16) : Rat) / 16 - us| ≤ 1 / 32 := by
  have hround := abs_le.mp (abs_roundHalfUp_sub_le_half (us * 16))
  exact abs_le.mpr ⟨by linarith, by linarith⟩

theorem round_sixteenths_exact (k : Int) : (roundHalfUp ((k : Rat) / 16 * 16) : Rat) / 16 = (k : Rat) / 16 := by
  rw [div_mul_cancel₀ (k : Rat) (by norm_num), roundHalfUp_intCast]

/-- Settles O37: an OK answer means the time was encoded, and decoding gives its rounded sixteenths. -/
theorem customTimeRoundTrip : Obligations.CustomTimeRoundTrip := by
  unfold Obligations.CustomTimeRoundTrip
  intro s t sp p us hexec hok
  have hdecoded := decodeImage_encodeCustom (encodeCustom_of_exec_tpsc_ok hexec hok)
  refine ⟨_, answersOnly_tpgt_of_decodeImage hdecoded, rfl, abs_round_sixteenths_sub_le us, fun k hk => ?_⟩
  rw [hk, round_sixteenths_exact]

/-- Settles O38: the image TPSP stores decodes to its table entry. -/
theorem presetRoundTrip : Obligations.PresetRoundTrip := by
  unfold Obligations.PresetRoundTrip
  intro s sp p i
  refine ⟨_, exec_tpsp sp p i s, answersOnly_tpgt_of_decodeImage ?_⟩
  rw [done_readTp, readTp_writeTp_same, decodeImage_presetImage]

/-! ## Bit and block times (R170, R172) -/

/-- A custom image is a number of sixteenths of 15 bits. -/
theorem value_of_custom_range {st : State} {p : Param} {t : Speed} (h : 0x8000 ≤ (st.readTp t p).toNat) :
    ∃ m : Nat, m ≤ 0x7FFF ∧ st.value p t = (m : Rat) / 16 := by
  have hlt : (st.readTp t p).toNat < 0x10000 := (st.readTp t p).isLt
  exact ⟨(st.readTp t p).toNat - 0x8000, by omega, decodeImage_of_custom_range h⟩

/-- Settles O46: the sum of two magnitudes of 15 bits, in sixteenths. -/
theorem customBitTimesAreSixteenths : Obligations.CustomBitTimesAreSixteenths := by
  unfold Obligations.CustomBitTimesAreSixteenths
  intro s t hlow hrec
  obtain ⟨m, hm, hlowValue⟩ := value_of_custom_range hlow
  obtain ⟨n, hn, hrecValue⟩ := value_of_custom_range hrec
  have hsum : s.bitTime t = ((m + n : Nat) : Rat) / 16 := by
    rw [State.bitTime, hlowValue, hrecValue, Nat.cast_add, add_div]
  refine ⟨m + n, hsum ▸ answersOnly_bitt s (e := true) (sp := t) (.inl rfl), ?bound⟩
  case bound =>
    have hle : ((m + n : Nat) : Rat) ≤ 65534 := by exact_mod_cast (by omega : m + n ≤ 65534)
    linarith

theorem value_reset (p : Param) (t : Speed) : State.reset.value p t = presetUs p t 6 := by
  rw [State.value, readTp_reset, decodeImage_resetImage]

/-- Settles O48: after reset SPEED is Standard and every image is the preset index 6. -/
theorem blktFourAfterReset : Obligations.BlktFourAfterReset := by
  unfold Obligations.BlktFourAfterReset
  have htime : State.reset.blockTime (State.reset.sel false .standard) 4#16 false =
      32 * (presetUs .tW0L .standard 6 + presetUs .tREC .standard 6) := by
    rw [sel_false, reset_speed, State.blockTime, State.byteTime, State.bitTime, value_reset, value_reset,
      show (4#16 : Word).toNat = 4 from rfl, if_neg Bool.false_ne_true]
    push_cast
    ring
  exact htime ▸ answersOnly_blkt State.reset false 4#16 (.inr rfl)

end Sys2Proof.Machine
end

section
/-! Commands given twice (spec/20_memory.md R60). -/

namespace Sys2Proof.Machine

/-- The commands that only answer: all but CRCI, CRCU, SPDW, TPRW, TPSP and TPSC. -/
def IsRead (i : Instr) : Prop :=
  i = .spdr ∨ (∃ sp p, i = .tprr sp p) ∨ (∃ sp p, i = .tpgt sp p) ∨ i = .crcr ∨ (∃ w, i = .crcc w) ∨
    (∃ e sp, i = .bitt e sp) ∨ (∃ e sp, i = .rstt e sp) ∨ (∃ e sp, i = .bytt e sp) ∨ ∃ e sp r n, i = .blkt e sp r n

/-- A read command's whole effect is its response: the commands that write are others. -/
theorem exec_eq_respond_of_isRead {i : Instr} (h : IsRead i) (s : State) : ∃ c v, exec i s = .next (s.respond c v) := by
  obtain ⟨t, hexec⟩ := exec_next i s
  rcases exec_cases hexec with ⟨c, v, rfl⟩ | hwrites
  · exact ⟨c, v, hexec⟩
  · rcases hwrites with ⟨rfl, -⟩ | ⟨d, rfl, -⟩ | ⟨x, rfl, -⟩ | ⟨sp, p, w, rfl | ⟨n, rfl, -⟩ | ⟨us, rfl, -⟩, -⟩ <;>
      simp [IsRead] at h

theorem writeTp_twice (s : State) (sp : Speed) (p : Param) (w : Word) :
    SameRegisters (s.writeTp sp p w).done ((s.writeTp sp p w).done.writeTp sp p w).done :=
  ⟨rfl, by simp, rfl⟩

/-- Settles O54: a read leaves a state that differs in the response alone, which no command reads; a write of the same value
again writes what is there; and CRCU shifts again. -/
theorem readsAndIdempotentWrites : Obligations.ReadsAndIdempotentWrites := by
  unfold Obligations.ReadsAndIdempotentWrites
  refine ⟨fun i s _ hread => ?reads, fun i s hwrite => ?writes, ?crcu⟩
  case reads =>
    obtain ⟨c, v, hexec⟩ := exec_eq_respond_of_isRead hread s
    exact ⟨_, hexec, ⟨rfl, rfl, rfl⟩, (exec_respond i s c v).trans hexec⟩
  case writes =>
    rcases hwrite with ⟨sp, p, w, rfl⟩ | ⟨sp, p, n, rfl⟩ | ⟨sp, p, us, rfl⟩ | ⟨sp, rfl⟩ | rfl
    · exact ⟨_, _, exec_tprw sp p w s, exec_tprw sp p w _, writeTp_twice s sp p w, rfl⟩
    · exact ⟨_, _, exec_tpsp sp p n s, exec_tpsp sp p n _, writeTp_twice s sp p (presetImage n), rfl⟩
    · refine ⟨_, _, exec_tpsc sp p us s, exec_tpsc sp p us _, ?_⟩
      cases encodeCustom p sp us with
      | none => exact ⟨⟨rfl, rfl, rfl⟩, rfl⟩
      | some w => exact ⟨writeTp_twice s sp p w, rfl⟩
    · exact ⟨_, _, exec_spdw sp s, exec_spdw sp _, ⟨rfl, rfl, rfl⟩, rfl⟩
    · exact ⟨_, _, exec_crci s, exec_crci _, ⟨rfl, rfl, rfl⟩, rfl⟩
  case crcu =>
    refine ⟨0xFF#8, State.reset, _, _, exec_crcu _ _, exec_crcu _ _, ?_⟩
    simp only [done_crcAcc, setCrc_crcAcc, reset_crcAcc]
    rw [crcStep_ones_twice, crcStep_ones]
    decide

end Sys2Proof.Machine
end

section
/-! The boot sequence (spec/70_reset_and_hazards.md R203). -/

namespace Sys2Proof.Machine

/-- What a list of images, each (s, p) named once, leaves in TP when it is loaded over the images of `s`. -/
def Loaded (images : List (Speed × Param × Word)) (s u : State) : Prop :=
  (∀ sp p w, (sp, p, w) ∈ images → u.readTp sp p = w) ∧
  ∀ sp p, (∀ w, (sp, p, w) ∉ images) → u.readTp sp p = s.readTp sp p

/-- Loading the first image and then the others loads them all: no later one names the first's (s, p). -/
theorem loaded_cons {sp : Speed} {p : Param} {w : Word} {images : List (Speed × Param × Word)} {s u : State}
    (hfresh : ∀ w', (sp, p, w') ∉ images) (h : Loaded images (s.writeTp sp p w).done u) :
    Loaded ((sp, p, w) :: images) s u := by
  obtain ⟨hlisted, hothers⟩ := h
  refine ⟨fun sp' p' w' hmem => ?_, fun sp' p' hnot => ?_⟩
  · rcases List.mem_cons.mp hmem with hfirst | hlater
    · cases hfirst
      rw [hothers sp p hfresh, done_readTp, readTp_writeTp_same]
    · exact hlisted sp' p' w' hlater
  · have hother : ¬(sp' = sp ∧ p' = p) := by
      rintro ⟨rfl, rfl⟩
      exact hnot w (by simp)
    rw [hothers sp' p' fun w' hmem => hnot w' (List.mem_cons_of_mem _ hmem), done_readTp, readTp_writeTp_other s w hother]

/-- A TPRW per image, and then the commands `is`: the run of `is` from a state with the images loaded. -/
theorem runsTo_tprws {images : List (Speed × Param × Word)} (hnodup : (images.map fun x => (x.1, x.2.1)).Nodup) (s : State) :
    ∃ u : State, Loaded images s u ∧ ∀ (is : List Instr) (k : Nat) (t : State),
      RunsTo (images.length + k) (s.present (images.map (fun x => .tprw x.1 x.2.1 x.2.2) ++ is)) t ↔
        RunsTo k (u.present is) t := by
  induction images generalizing s with
  | nil => exact ⟨s, ⟨nofun, fun _ _ _ => rfl⟩, fun is k t => by rw [List.length_nil, Nat.zero_add]; rfl⟩
  | cons x images ih =>
    obtain ⟨sp, p, w⟩ := x
    obtain ⟨hfresh, hrest⟩ := List.nodup_cons.mp hnodup
    obtain ⟨u, hloaded, hrun⟩ := ih hrest (s.writeTp sp p w).done
    refine ⟨u, loaded_cons (fun w' hmem => hfresh ?_) hloaded, fun is k t => ?_⟩
    · exact List.mem_map.mpr ⟨(sp, p, w'), hmem, rfl⟩
    · rw [List.length_cons, Nat.succ_add, ← hrun]
      exact runsTo_present_cons (fetch_encode rfl) (exec_tprw sp p w s)

/-- Settles O58: the images by a TPRW each, then SPDW and CRCI, which write no image. -/
theorem bootLoadsTheBlock : Obligations.BootLoadsTheBlock := by
  unfold Obligations.BootLoadsTheBlock
  intro images bus s hnodup
  obtain ⟨u, ⟨hlisted, hothers⟩, hrun⟩ := runsTo_tprws hnodup s
  refine ⟨((u.setSpeed bus).done.setCrc 0x0000#16).done.present [], ?run, rfl, rfl, hlisted, hothers⟩
  case run =>
    refine (hrun [.spdw bus, .crci] 2 _).mpr ((runsTo_present_cons (fetch_encode rfl) (exec_spdw bus u)).mpr ?_)
    exact (runsTo_present_cons (fetch_encode rfl) (exec_crci _)).mpr rfl

end Sys2Proof.Machine
end

section
/-! The byte stream of a command (spec/20_memory.md R57). -/

namespace Sys2Proof

theorem deser16_low_high (w : Word) : deser16 (lowByte w) (highByte w) = w := deser16_of_ser16 (ser16_eq w)

theorem wordsOfBytes_low_high (w : Word) (bs : List Byte) :
    wordsOfBytes (lowByte w :: highByte w :: bs) = (wordsOfBytes bs).map (w :: ·) := by
  rw [wordsOfBytes, deser16_low_high]

theorem bytesOfTurn_word (w : Word) (t : Turn) :
    bytesOfTurn (.word w :: t) = (bytesOfTurn t).map ([lowByte w, highByte w] ++ ·) := by
  rw [bytesOfTurn, ser16_eq]
  rfl

/-- Settles O7, by the kind of operand: none, a word, or the US of TPSC. -/
theorem byteStreamCarriesTheWords : Obligations.ByteStreamCarriesTheWords := by
  unfold Obligations.ByteStreamCarriesTheWords
  intro i hwf
  have hfetch := fetch_encode hwf
  cases hx : i.operand with
  | none =>
    have hturn : encode i = [.word i.word] := by rw [encode, hx, Operand.items]
    refine .inr (.inl ⟨i.word, hturn, ?_, ?_⟩)
    · rw [hturn, bytesOfTurn_word]
      rfl
    · rw [fetchBytes, wordsOfBytes_low_high, ← hfetch, hturn]
      rfl
  | word w =>
    have hturn : encode i = [.word i.word, .word w] := by rw [encode, hx, Operand.items]
    refine .inr (.inr ⟨i.word, w, hturn, ?_, ?_⟩)
    · rw [hturn, bytesOfTurn_word, bytesOfTurn_word]
      rfl
    · rw [fetchBytes, wordsOfBytes_low_high, wordsOfBytes_low_high, ← hfetch, hturn]
      rfl
  | us q =>
    have htpsc : ∃ sp p us, i = .tpsc sp p us := by
      cases i <;> cases hx
      exact ⟨_, _, _, rfl⟩
    obtain ⟨sp, p, us, rfl⟩ := htpsc
    exact .inl ⟨sp, p, us, rfl, rfl⟩

end Sys2Proof
end

section
/-! Numbers as spec/30_encoding.md R80 has them written: the assembler reads the digits of a number as its value, and they
stand in one token. -/

namespace Sys2Proof.Machine

/-! ## Digits -/

/-- The digits of base 16 in either case, and with them those of base 10. -/
theorem digitOf_hex_of_isDigit {base : Nat} {c : Char} {d : Nat} (hbase : base ≤ 16) (h : IsDigit base c d) :
    digitOf 16 c = some d := by
  obtain ⟨hd, hc⟩ := h
  have hlt : d < 16 := hd.trans_le hbase
  interval_cases d <;> rcases hc with hc | hc <;> cases hc <;> rfl

/-- A hex digit whose value is below the base is a digit of the base. -/
theorem digitOf_of_hex {base : Nat} {c : Char} {d : Nat} (hd : d < base) (h : digitOf 16 c = some d) :
    digitOf base c = some d := by
  simp only [digitOf, Option.ite_none_right_eq_some, Option.some.injEq] at h ⊢
  split_ifs at h ⊢ <;> omega

theorem digitOf_of_isDigit {base : Nat} {c : Char} {d : Nat} (hbase : base ≤ 16) (h : IsDigit base c d) :
    digitOf base c = some d :=
  digitOf_of_hex h.1 (digitOf_hex_of_isDigit hbase h)

/-- A value read before the digits moves up by as many places as there are digits. -/
theorem foldl_digits (base acc : Nat) (ds : List Nat) :
    ds.foldl (fun a d => base * a + d) acc = base ^ ds.length * acc + ds.foldl (fun a d => base * a + d) 0 := by
  induction ds generalizing acc with
  | nil => simp
  | cons d ds ih =>
    rw [List.foldl_cons, List.foldl_cons, ih, ih (base * 0 + d), List.length_cons]
    ring

theorem digitsFrom_of_isDigits {base : Nat} {cs : List Char} {v : Nat} (hbase : base ≤ 16) (h : IsDigits base cs v)
    (acc : Nat) : digitsFrom base acc cs = some (base ^ cs.length * acc + v) := by
  obtain ⟨-, ds, hds, rfl⟩ := h
  rw [digitsFrom_of_digits (hds.imp fun _ _ => digitOf_of_isDigit hbase), foldl_digits, hds.length_eq]

/-! ## The characters of a number -/

theorem isDigit_of_mem {base : Nat} {cs : List Char} {ds : List Nat} {c : Char} (h : List.Forall₂ (IsDigit base) cs ds)
    (hc : c ∈ cs) : ∃ d, IsDigit base c d := by
  induction h with
  | nil => cases hc
  | cons hd _ ih =>
    rcases List.mem_cons.mp hc with rfl | htail
    · exact ⟨_, hd⟩
    · exact ih htail

/-- A character that is no hex digit is in no row of digits. -/
theorem not_mem_of_isDigits {base : Nat} {cs : List Char} {v : Nat} {c : Char} (hbase : base ≤ 16) (h : IsDigits base cs v)
    (hc : digitOf 16 c = none) : c ∉ cs := by
  obtain ⟨-, ds, hds, -⟩ := h
  intro hmem
  obtain ⟨d, hd⟩ := isDigit_of_mem hds hmem
  rw [digitOf_hex_of_isDigit hbase hd] at hc
  cases hc

theorem not_mem_of_isNumber {tok : String} {v : Nat} {c : Char} (h : IsNumber tok v) (hc : digitOf 16 c = none)
    (hx : c ≠ 'x') : c ∉ tok.toList := by
  rcases h with hdec | ⟨cs, htok, hhex⟩
  · exact not_mem_of_isDigits (by decide) hdec hc
  · have hzero : c ≠ '0' := by
      rintro rfl
      cases hc
    rw [htok, List.mem_cons, List.mem_cons]
    exact not_or.mpr ⟨hzero, not_or.mpr ⟨hx, not_mem_of_isDigits (le_refl 16) hhex hc⟩⟩

theorem not_mem_of_isDecimal {tok : String} {us : Micros} {c : Char} (h : IsDecimal tok us) (hc : digitOf 16 c = none)
    (hpoint : c ≠ '.') : c ∉ tok.toList := by
  rcases h with ⟨v, hdec, -⟩ | ⟨whole, frac, v, w, htok, hwhole, hfrac, -⟩
  · exact not_mem_of_isDigits (by decide) hdec hc
  · rw [htok, List.mem_append, List.mem_cons]
    exact not_or.mpr ⟨not_mem_of_isDigits (by decide) hwhole hc,
      not_or.mpr ⟨hpoint, not_mem_of_isDigits (by decide) hfrac hc⟩⟩

theorem ne_nil_of_isNumber {tok : String} {v : Nat} (h : IsNumber tok v) : tok.toList ≠ [] := by
  rcases h with ⟨hne, -⟩ | ⟨cs, htok, -⟩
  · exact hne
  · rw [htok]
    exact List.cons_ne_nil _ _

theorem ne_nil_of_isDecimal {tok : String} {us : Micros} (h : IsDecimal tok us) : tok.toList ≠ [] := by
  rcases h with ⟨v, ⟨hne, -⟩, -⟩ | ⟨whole, frac, v, w, htok, -⟩
  · exact hne
  · rw [htok]
    exact List.append_ne_nil_of_right_ne_nil _ (List.cons_ne_nil _ _)

/-! ## The values read -/

/-- A decimal number does not begin like a hex one, `x` being no digit. -/
theorem numberOf_of_isNumber {tok : String} {v : Nat} (h : IsNumber tok v) : numberOf tok = some v := by
  rcases h with hdec | ⟨cs, htok, hhex⟩
  · have hx : 'x' ∉ tok.toList := not_mem_of_isDigits (by decide) hdec rfl
    have hvalue := digitsFrom_of_isDigits (by decide) hdec 0
    unfold numberOf
    split
    case h_1 hnil => exact absurd hnil hdec.1
    case h_2 hhex => simp [hhex] at hx
    case h_3 hhex => simp [hhex] at hx
    case h_4 => simpa using hvalue
  · obtain ⟨c, cs, rfl⟩ := List.exists_cons_of_ne_nil hhex.1
    have hvalue := digitsFrom_of_isDigits (le_refl 16) hhex 0
    simpa [numberOf, htok] using hvalue

theorem bitsOf_of_isNumber {n v : Nat} {tok : String} (h : IsNumber tok v) (hv : v < 2 ^ n) :
    bitsOf n tok = some (BitVec.ofNat n v) :=
  bitsOf_of_numberOf (numberOf_of_isNumber h) hv

theorem decimalOf_whole {cs : List Char} {v : Nat} (h : IsDigits 10 cs v) : decimalOf cs = some (v : Rat) := by
  have hpoint : '.' ∉ cs := not_mem_of_isDigits (by decide) h rfl
  have hvalue := digitsFrom_of_isDigits (by decide) h 0
  obtain ⟨c, cs, rfl⟩ := List.exists_cons_of_ne_nil h.1
  rw [decimalOf, splitPoint_no_point hpoint]
  simp [hvalue]

theorem decimalOf_point {whole frac : List Char} {v w : Nat} (hwhole : IsDigits 10 whole v) (hfrac : IsDigits 10 frac w) :
    decimalOf (whole ++ '.' :: frac) = some (v + (w : Rat) / 10 ^ frac.length) := by
  have hpoint : '.' ∉ whole := not_mem_of_isDigits (by decide) hwhole rfl
  have hvalue : digitsFrom 10 0 (whole ++ frac) = some (10 ^ frac.length * v + w) := by
    rw [digitsFrom_append, digitsFrom_of_isDigits (by decide) hwhole, Option.bind_some,
      digitsFrom_of_isDigits (by decide) hfrac, Nat.mul_zero, Nat.zero_add]
  have hdiv : ((10 ^ frac.length * v + w : Nat) : Rat) / 10 ^ frac.length = v + (w : Rat) / 10 ^ frac.length := by
    push_cast
    field_simp
  obtain ⟨c, whole, rfl⟩ := List.exists_cons_of_ne_nil hwhole.1
  obtain ⟨c', frac, rfl⟩ := List.exists_cons_of_ne_nil hfrac.1
  rw [decimalOf, splitPoint_point hpoint, ← hdiv]
  exact congrArg (Option.map fun n : Nat => (n : Rat) / 10 ^ (c' :: frac).length) hvalue

/-- A decimal number does not begin with a minus. -/
theorem microsOf_of_isDecimal {tok : String} {us : Micros} (h : IsDecimal tok us) : microsOf tok = some us := by
  have hminus : '-' ∉ tok.toList := not_mem_of_isDecimal h rfl (by decide)
  have hvalue : decimalOf tok.toList = some us := by
    rcases h with ⟨v, hdec, rfl⟩ | ⟨whole, frac, v, w, htok, hwhole, hfrac, rfl⟩
    · exact decimalOf_whole hdec
    · rw [htok, decimalOf_point hwhole hfrac]
  unfold microsOf
  split
  case h_1 hneg => simp [hneg] at hminus
  case h_2 => exact hvalue

end Sys2Proof.Machine
end

section
/-! The lines of spec/30_encoding.md R80 and R81: a line is read as its mnemonic and its operands, and stands for the command
with the encoding in its row. -/

namespace Sys2Proof.Machine

/-! ## Tokens of a line -/

/-- A text that the lexer reads as one token, itself. -/
def IsToken (tok : String) : Prop := tokens tok = [tok]

theorem isToken_of_not_mem {tok : String} (hne : tok.toList ≠ []) (hspace : ' ' ∉ tok.toList) (hcomma : ',' ∉ tok.toList) :
    IsToken tok :=
  tokens_end (fun _ hc => ⟨fun h => hspace (h ▸ hc), fun h => hcomma (h ▸ hc)⟩) hne

theorem isToken_of_isNumber {tok : String} {v : Nat} (h : IsNumber tok v) : IsToken tok :=
  isToken_of_not_mem (ne_nil_of_isNumber h) (not_mem_of_isNumber h rfl (by decide)) (not_mem_of_isNumber h rfl (by decide))

theorem isToken_of_isDecimal {tok : String} {us : Micros} (h : IsDecimal tok us) : IsToken tok :=
  isToken_of_not_mem (ne_nil_of_isDecimal h) (not_mem_of_isDecimal h rfl (by decide))
    (not_mem_of_isDecimal h rfl (by decide))

theorem isToken_speedText (s : Speed) : IsToken (speedText s) := by
  cases s <;> rfl

theorem isToken_paramText (p : Param) : IsToken (paramText p) := by
  cases p <;> rfl

/-- A space or a comma ends the tokens before it, whatever they are. -/
theorem lexChars_append_space (cs rest cur : List Char) :
    lexChars (cs ++ ' ' :: rest) cur = lexChars cs cur ++ lexChars rest [] := by
  fun_induction lexChars cs cur <;> simp_all [lexChars_char]

theorem lexChars_append_comma (cs rest cur : List Char) :
    lexChars (cs ++ ',' :: rest) cur = lexChars cs cur ++ "," :: lexChars rest [] := by
  fun_induction lexChars cs cur <;> simp_all [lexChars_char]

theorem tokens_append_space (line rest : String) : tokens (line ++ " " ++ rest) = tokens line ++ tokens rest := by
  rw [tokens, String.toList_append, String.toList_append, List.append_assoc]
  exact lexChars_append_space line.toList rest.toList []

theorem tokens_append_comma (line rest : String) : tokens (line ++ ", " ++ rest) = tokens line ++ "," :: tokens rest := by
  rw [tokens, String.toList_append, String.toList_append, List.append_assoc]
  exact lexChars_append_comma line.toList (' ' :: rest.toList) []

theorem tokens_append_arrow (line rest : String) : tokens (line ++ " -> " ++ rest) = tokens line ++ "->" :: tokens rest := by
  rw [tokens, String.toList_append, String.toList_append, List.append_assoc]
  exact lexChars_append_space line.toList ('-' :: '>' :: ' ' :: rest.toList) []

section
variable {name lead a b c : String} (hlead : lead = name ++ " ") (hname : IsToken name)
include hlead hname

theorem tokens_one_operand (ha : IsToken a) : tokens (lead ++ a) = [name, a] := by
  rw [hlead, tokens_append_space, hname, ha]
  rfl

theorem tokens_two_operands (ha : IsToken a) (hb : IsToken b) : tokens (lead ++ a ++ ", " ++ b) = [name, a, ",", b] := by
  rw [tokens_append_comma, tokens_one_operand hlead hname ha, hb]
  rfl

theorem tokens_three_operands (ha : IsToken a) (hb : IsToken b) (hc : IsToken c) :
    tokens (lead ++ a ++ ", " ++ b ++ ", " ++ c) = [name, a, ",", b, ",", c] := by
  rw [tokens_append_comma, tokens_two_operands hlead hname ha hb, hc]
  rfl

end

end Sys2Proof.Machine
end

section
/-! What the lines of spec/30_encoding.md R80 and R81 stand for. -/

namespace Sys2Proof.Machine

/-- A line read as the tokens `ts` stands for the command of the row that `ts` fits, and for the turn that decodes to it. -/
theorem assemblesTo_of_tokens {line : String} {ts : List String} {t : Turn} {i : Instr} (htokens : tokens line = ts)
    (hrow : ∀ l, tokens l = ts → assemble l = some i) (hfetch : fetch t = .command i) : AssemblesTo line t :=
  ⟨i, hrow line htokens, eq_encode_of_fetch hfetch⟩

@[simp] theorem speedNamed_speedText (s : Speed) : speedNamed (speedText s) = some s := by
  cases s <;> rfl

@[simp] theorem paramNamed_paramText (p : Param) : paramNamed (paramText p) = some p := by
  cases p <;> rfl

@[simp] theorem onParam_texts {α : Type} (s : Speed) (p : Param) (k : Speed → Param → α) :
    onParam (speedText s) (paramText p) k = some (k s p) := by
  simp [onParam]

/-! ## No line stands for an ill-formed command -/

theorem wf_of_map {α : Type} {o : Option α} {k : α → Instr} {i : Instr} (hk : ∀ a, (k a).wf = true)
    (h : o.map k = some i) : i.wf = true := by
  obtain ⟨a, -, rfl⟩ := Option.map_eq_some_iff.mp h
  exact hk a

theorem wf_of_onParam {spd par : String} {k : Speed → Param → Instr} {i : Instr} (hk : ∀ s p, (k s p).wf = true)
    (h : onParam spd par k = some i) : i.wf = true := by
  obtain ⟨s, -, hs⟩ := Option.bind_eq_some_iff.mp h
  exact wf_of_map (hk s) hs

theorem wf_of_bind_onParam {α : Type} {o : Option α} {spd par : String} {k : α → Speed → Param → Instr} {i : Instr}
    (hk : ∀ a s p, (k a s p).wf = true) (h : (o.bind fun a => onParam spd par (k a)) = some i) : i.wf = true := by
  obtain ⟨a, -, ha⟩ := Option.bind_eq_some_iff.mp h
  exact wf_of_onParam (hk a) ha

/-- E = 1 goes with any speed, and a line without a speed has Standard. -/
theorem wf_of_blktLine {e : Bool} {s : Option Speed} {n : String} {r : Bool} {i : Instr}
    (hsel : ∀ x, s = some x → selWf e x = true) (h : blktLine e s n r = some i) : i.wf = true := by
  obtain ⟨x, hx, hn⟩ := Option.bind_eq_some_iff.mp h
  exact wf_of_map (k := .blkt e x r) (fun _ => hsel x hx) hn

theorem wf_of_assemble {line : String} {i : Instr} (h : assemble line = some i) : i.wf = true := by
  unfold assemble at h
  split at h
  case h_1 | h_3 | h_6 | h_12 | h_14 | h_16 =>
    cases h
    rfl
  case h_2 | h_4 | h_5 | h_13 | h_15 | h_17 => exact wf_of_map (fun _ => rfl) h
  case h_7 | h_11 => exact wf_of_onParam (fun _ _ => rfl) h
  case h_8 | h_9 | h_10 => exact wf_of_bind_onParam (fun _ _ _ => rfl) h
  case h_18 | h_19 =>
    refine wf_of_blktLine (fun x hx => ?_) h
    cases hx
    rfl
  case h_20 | h_21 => exact wf_of_blktLine (fun _ _ => rfl) h
  case h_22 => cases h

/-! ## The rows of R80 -/

/-- The D field lies below OP. -/
theorem fetch_word_crcu {v : Nat} (hv : v < 2 ^ 8) :
    fetch [.word (BitVec.ofNat 16 (0x2000 + v))] = .command (.crcu (BitVec.ofNat 8 v)) := by
  have hword : (Instr.crcu (BitVec.ofNat 8 v)).word = BitVec.ofNat 16 (0x2000 + v) := by
    apply BitVec.eq_of_toNat_eq
    rw [word_crcu_toNat, BitVec.toNat_ofNat, BitVec.toNat_ofNat]
    omega
  rw [← hword]
  exact fetch_encode (i := .crcu (BitVec.ofNat 8 v)) rfl

theorem fetch_word_spdw (s : Speed) : fetch [.word (BitVec.ofNat 16 (0x5000 + 0x0800 * s.code))] = .command (.spdw s) := by
  cases s with
  | standard => exact fetch_encode (i := .spdw .standard) rfl
  | overdrive => exact fetch_encode (i := .spdw .overdrive) rfl

theorem assemblesTo_tpsp (s : Speed) (p : Param) {i : String} {v : Nat} (hi : IsNumber i v) (hv : v < 2 ^ 4) :
    AssemblesTo ("TPSP " ++ speedText s ++ ", " ++ paramText p ++ ", " ++ i)
      [.word (wordSP 0x9 s p + BitVec.ofNat 16 v)] := by
  have hfetch := fetch_word_tpsp s p (BitVec.ofNat 4 v)
  rw [BitVec.toNat_ofNat, Nat.mod_eq_of_lt hv] at hfetch
  exact assemblesTo_of_tokens
    (tokens_three_operands (name := "TPSP") rfl rfl (isToken_speedText s) (isToken_paramText p) (isToken_of_isNumber hi))
    (fun l h => by simp [assemble, h, bitsOf_of_isNumber hi hv]) hfetch

/-- Format T: without a speed the line is the command with E = 0, with one it is that with E = 1. -/
theorem assemblesTo_formatT {name : String} {op : Nat} {k : Bool → Speed → Instr} (hname : IsToken name)
    (hbare : ∀ l, tokens l = [name] → assemble l = some (k false .standard))
    (hspeed : ∀ s l, tokens l = [name, speedText s] → assemble l = some (k true s))
    (hfetch : ∀ e s, LegalSelection e s → fetch [.word (wordSRE op s false e)] = .command (k e s)) :
    AssemblesTo name [.word (wordSRE op .standard false false)] ∧
      ∀ s, AssemblesTo (name ++ " " ++ speedText s) [.word (wordSRE op s false true)] :=
  ⟨assemblesTo_of_tokens hname hbare (hfetch false .standard (.inr rfl)), fun s =>
    assemblesTo_of_tokens (tokens_one_operand rfl hname (isToken_speedText s)) (hspeed s) (hfetch true s (.inl rfl))⟩

theorem tokens_append_rst (line : String) : tokens (line ++ ", RST") = tokens line ++ [",", "RST"] := by
  have hcomma := tokens_append_comma line "RST"
  rw [String.append_assoc] at hcomma
  exact hcomma

/-- Format TW. A number is never read as the RST that may follow it. -/
theorem assemblesTo_blkt {n : String} {v : Nat} (hn : IsNumber n v) (hv : v < 2 ^ 16) {rst : String} {r : Bool}
    (hrst : (rst, r) ∈ [("", false), (", RST", true)]) :
    AssemblesTo ("BLKT " ++ n ++ rst) [.word (wordSRE 0xF .standard r false), .word (BitVec.ofNat 16 v)] ∧
      ∀ s, AssemblesTo ("BLKT " ++ speedText s ++ ", " ++ n ++ rst)
        [.word (wordSRE 0xF s r true), .word (BitVec.ofNat 16 v)] := by
  have hne : n ≠ "RST" := by
    rintro rfl
    exact not_mem_of_isNumber (c := 'R') hn rfl (by decide) (by decide)
  have hbits := bitsOf_of_isNumber hn hv
  have hshort : tokens ("BLKT " ++ n) = ["BLKT", n] := tokens_one_operand rfl rfl (isToken_of_isNumber hn)
  have hlong (s : Speed) : tokens ("BLKT " ++ speedText s ++ ", " ++ n) = ["BLKT", speedText s, ",", n] :=
    tokens_two_operands rfl rfl (isToken_speedText s) (isToken_of_isNumber hn)
  have hfetch {e : Bool} {s : Speed} (hsel : selWf e s = true) :
      fetch [.word (wordSRE 0xF s r e), .word (BitVec.ofNat 16 v)] = .command (.blkt e s r (BitVec.ofNat 16 v)) :=
    fetch_formatTW (i := .blkt e s r (BitVec.ofNat 16 v)) hsel rfl
  have hcases : (rst = "" ∧ r = false) ∨ (rst = ", RST" ∧ r = true) := by simpa using hrst
  rcases hcases with ⟨rfl, rfl⟩ | ⟨rfl, rfl⟩
  · simp only [String.append_empty]
    exact ⟨assemblesTo_of_tokens hshort (fun l h => by simp [assemble, h, blktLine, hbits]) (hfetch rfl), fun s =>
      assemblesTo_of_tokens (hlong s) (fun l h => by simp [assemble, h, blktLine, hbits]) (hfetch rfl)⟩
  · refine ⟨assemblesTo_of_tokens (tokens_append_rst _) (fun l h => ?_) (hfetch rfl), fun s =>
      assemblesTo_of_tokens (tokens_append_rst _) (fun l h => ?_) (hfetch rfl)⟩
    · simp [assemble, h, hshort, blktLine, hbits]
    · simp [assemble, h, hlong, blktLine, hbits]

/-- Settles O8, row by row: the line's tokens fit the row, its texts and numbers are read as the command's fields, and the
row's turn decodes to that command. -/
theorem assembledLinesAreCommands : Obligations.AssembledLinesAreCommands := by
  unfold Obligations.AssembledLinesAreCommands
  refine ⟨⟨?crci, ?crcr, ?spdr⟩, fun d v hd hv => ?crcu, fun w v hw hv => ?crcc, fun s => ?spdw, fun s p => ?tprr,
    fun s p w v hw hv => ?tprw, fun s p i v hi hv => assemblesTo_tpsp s p hi hv, fun s p us q hus => ?tpsc,
    fun s p => ?tpgt, fun name op hname => ?formatT, fun n v hn hv rst r hrst => assemblesTo_blkt hn hv hrst,
    fun line i h => wf_of_assemble h⟩
  case crci => exact ⟨.crci, rfl, rfl, rfl⟩
  case crcr => exact ⟨.crcr, rfl, rfl, rfl⟩
  case spdr => exact ⟨.spdr, rfl, rfl, rfl⟩
  case crcu =>
    exact assemblesTo_of_tokens (tokens_one_operand (name := "CRCU") rfl rfl (isToken_of_isNumber hd))
      (fun l h => by simp [assemble, h, bitsOf_of_isNumber hd hv]) (fetch_word_crcu hv)
  case crcc =>
    exact assemblesTo_of_tokens (tokens_one_operand (name := "CRCC") rfl rfl (isToken_of_isNumber hw))
      (fun l h => by simp [assemble, h, bitsOf_of_isNumber hw hv]) (fetch_encode (i := .crcc (BitVec.ofNat 16 v)) rfl)
  case spdw =>
    exact assemblesTo_of_tokens (tokens_one_operand (name := "SPDW") rfl rfl (isToken_speedText s))
      (fun l h => by simp [assemble, h]) (fetch_word_spdw s)
  case tprr =>
    exact assemblesTo_of_tokens
      (tokens_two_operands (name := "TPRR") rfl rfl (isToken_speedText s) (isToken_paramText p))
      (fun l h => by simp [assemble, h]) (fetch_wordSP (i := .tprr s p) rfl rfl)
  case tprw =>
    exact assemblesTo_of_tokens
      (tokens_three_operands (name := "TPRW") rfl rfl (isToken_speedText s) (isToken_paramText p) (isToken_of_isNumber hw))
      (fun l h => by simp [assemble, h, bitsOf_of_isNumber hw hv])
      (fetch_wordSP (i := .tprw s p (BitVec.ofNat 16 v)) rfl rfl)
  case tpsc =>
    exact assemblesTo_of_tokens
      (tokens_three_operands (name := "TPSC") rfl rfl (isToken_speedText s) (isToken_paramText p) (isToken_of_isDecimal hus))
      (fun l h => by simp [assemble, h, microsOf_of_isDecimal hus]) (fetch_wordSP (i := .tpsc s p q) rfl rfl)
  case tpgt =>
    exact assemblesTo_of_tokens
      (tokens_two_operands (name := "TPGT") rfl rfl (isToken_speedText s) (isToken_paramText p))
      (fun l h => by simp [assemble, h]) (fetch_wordSP (i := .tpgt s p) rfl rfl)
  case formatT =>
    have hcases : (name = "BITT" ∧ op = 0xC) ∨ (name = "RSTT" ∧ op = 0xD) ∨ (name = "BYTT" ∧ op = 0xE) := by
      simpa using hname
    rcases hcases with ⟨rfl, rfl⟩ | ⟨rfl, rfl⟩ | ⟨rfl, rfl⟩
    · exact assemblesTo_formatT rfl (fun l h => by simp [assemble, h]) (fun s l h => by simp [assemble, h])
        fun e s hsel => fetch_formatT (i := .bitt e s) (selWf_iff.mpr hsel) rfl
    · exact assemblesTo_formatT rfl (fun l h => by simp [assemble, h]) (fun s l h => by simp [assemble, h])
        fun e s hsel => fetch_formatT (i := .rstt e s) (selWf_iff.mpr hsel) rfl
    · exact assemblesTo_formatT rfl (fun l h => by simp [assemble, h]) (fun s l h => by simp [assemble, h])
        fun e s hsel => fetch_formatT (i := .bytt e s) (selWf_iff.mpr hsel) rfl

/-! ## TPCOPY (R81) -/

theorem assemblePseudo_tpcopy (s1 s2 : Speed) (p1 p2 : Param) :
    assemblePseudo ("TPCOPY " ++ speedText s1 ++ ", " ++ paramText p1 ++ " -> " ++ speedText s2 ++ ", " ++ paramText p2) =
      some (.tpcopy s1 p1 s2 p2) := by
  have hsource := tokens_two_operands (lead := "TPCOPY ") (name := "TPCOPY") rfl rfl (isToken_speedText s1)
    (isToken_paramText p1)
  rw [assemblePseudo, tokens_append_comma, tokens_append_arrow, hsource, isToken_speedText s2, isToken_paramText p2]
  simp

/-- TPRR's answer is the response that TPRW takes its operand from. -/
theorem runPseudo_tpcopy (s : State) (s1 s2 : Speed) (p1 p2 : Param) :
    runPseudo (.tpcopy s1 p1 s2 p2) s =
      some ((((s.answer (.word (s.readTp s1 p1))).setHost []).writeTp s2 p2 (s.readTp s1 p1)).done.setHost []) := by
  rw [runPseudo, expansion, runExpansion_cons (i := .tprr s1 p1) rfl (fetch_encode rfl) rfl,
    runExpansion_cons (i := .tprw s2 p2 (s.readTp s1 p1)) rfl (fetch_encode rfl) (exec_tprw s2 p2 _ _)]
  rfl

/-- Settles O60: TPRR reads the source before TPRW writes the target, so the two may be the same. -/
theorem tpcopyCopiesTheRawImage : Obligations.TpcopyCopiesTheRawImage := by
  unfold Obligations.TpcopyCopiesTheRawImage
  intro s s1 s2 p1 p2
  refine ⟨assemblePseudo_tpcopy s1 s2 p1 p2, answersOnly_tprr s s1 p1, _, runPseudo_tpcopy s s1 s2 p1 p2, ?target,
    fun sp p hother => ?others, rfl, rfl, rfl⟩
  case target => rw [setHost_readTp, done_readTp, readTp_writeTp_same]
  case others => rw [setHost_readTp, done_readTp, readTp_writeTp_other _ _ hother, setHost_readTp, answer_readTp]

end Sys2Proof.Machine
end
